-- ==== Sys2Proof/Word.lean ====
section
/-! DEFINITION. The widths of the machine's values (00_scope.md R10, R11; 30_encoding.md R72). -/

namespace Sys2Proof

/-- A memory cell, a general register, an immediate `kk`. -/
abbrev Byte := BitVec 8

/-- A 4-bit field of an instruction word. -/
abbrev Nibble := BitVec 4

/-- A 12-bit address field `nnn`. -/
abbrev Addr12 := BitVec 12

/-- An instruction word, the address register, the program counter, a return address. -/
abbrev Word := BitVec 16

/-- The number of a general register `V[0]` to `V[15]` (10_state.md R21). -/
abbrev Reg := Fin 16

end Sys2Proof
end

