-- ==== Sys2Proof/Config.lean ====
section
/-! DEFINITION. What is fixed for the machine (00_scope.md R8) and the free values: the answers of the four answering
ports, which the spec leaves to external collaborators. The parameters of R9, which a test could show wrong, stand in
Machine/Params.lean. -/

namespace Sys2Proof.Config

/-- `MEM_SIZE`: addresses 0x000 to 0xFFF. -/
abbrev memSize : Nat := 4096

/-- `STACK_DEPTH`. -/
abbrev stackDepth : Nat := 16

/-- `DISP_W`. -/
abbrev dispW : Nat := 64

/-- `DISP_H`. -/
abbrev dispH : Nat := 32

/-- `SPRITE_MAX_ROWS`. -/
abbrev spriteMaxRows : Nat := 15

/-- FREE VALUE (log entry 2). The answer of the random-byte port to the query numbered by the argument: any byte
(41_alu.md R142, 60_exceptions.md R253). -/
opaque randByte : Nat → Byte

/-- FREE VALUE (log entry 2). The answer of the key-down port to a query about a key: any Boolean
(44_peripheral_ports.md R210, R211; 60_exceptions.md R254). The key is the whole byte, not reduced to 0..15. -/
opaque keyDown : Nat → Byte → Bool

/-- FREE VALUE (log entry 2). The answer of the key-wait port: none, or a key 0..15
(44_peripheral_ports.md R212, 60_exceptions.md R255). -/
opaque keyWait : Nat → Option (Fin 16)

/-- FREE VALUE (log entry 2). The answer of the delay-timer port to a read: any byte
(44_peripheral_ports.md R213, 60_exceptions.md R256). -/
opaque dtRead : Nat → Byte

end Sys2Proof.Config
end

