-- ==== Sys2Proof/Machine/Params.lean ====
section
/-! DEFINITION. The parameters the source does not settle, each at the value the spec chose (00_scope.md R8, R9; log
entry 5). They stand here, not in Config, so that one wrong value can be mended in one place. -/

namespace Sys2Proof.Machine.Params

/-- `PC_RESET` (92_eei_decisions.md D4). -/
def pcReset : Word := 0x200#16

/-- `PROG_BASE` (00_scope.md R8). -/
def progBase : Nat := 0x200

/-- `FONT_BASE` (00_scope.md R8). -/
def fontBase : Nat := 0x000

/-- `FONT_GLYPH_BYTES` (92_eei_decisions.md D27). -/
def fontGlyphBytes : Nat := 5

/-- `PROG_MAX_LEN` (92_eei_decisions.md D29). -/
def progMaxLen : Nat := 0xDFF

/-- `RET_RESUME_OFFSET`: 0 or 2 (92_eei_decisions.md D3). -/
def retResumeOffset : Word := 2#16

/-- `DRAW_SETS_VF` (92_eei_decisions.md D11). -/
def drawSetsVF : Bool := true

/-- `FX29_MASK_LOW_NIBBLE` (92_eei_decisions.md D17). -/
def fx29MaskLowNibble : Bool := false

end Sys2Proof.Machine.Params
end

