-- ==== Sys2Proof/Machine/State.lean ====
section
/-! DEFINITION. The machine's state as plain data (10_state.md R20 to R37), the reasons a step can stop, and reset. -/

namespace Sys2Proof.Machine

/-- Memory as address and byte pairs: addresses strictly rising, no entry equal to what the address reads as
unlisted (Memory.wf and Memory.initialByte in Machine/Memory.lean). -/
abbrev Memory := List Host.Cell

/-- The framebuffer: one 64-bit word per row, row 0 at the top; column `c` stands at bit `63 - c`
(10_state.md R33). -/
abbrev Framebuffer := Vector (BitVec 64) 32

/-- What a `ProgramLoad` record holds: "length or addr" (60_exceptions.md R231, R251). -/
inductive LoadError where
  | imageTooLong (length : Nat)
  | addressOutOfRange (addr : Nat)
  deriving DecidableEq, Repr

/-- A fault record (10_state.md R34): the constructor is its kind, the arguments are the parts that kind has
(60_exceptions.md R231). A step that meets one writes it into `halted` and changes nothing else; every later step
request answers it as `Host.Outcome.fault` (R234). All are safe: they are the spec's own stops (log entry 1). -/
inductive Fault where
  /-- Raised by any step whose fetched word is no instruction (R238). Safe. -/
  | decodeError (pc word : Word)
  /-- Raised by CALL with `sp = 16` (R236). Safe. -/
  | stackOverflow (pc word : Word)
  /-- Raised by RET with `sp = 0` (R237). Safe. -/
  | stackUnderflow (pc word : Word)
  /-- Raised by any step whose fetch leaves memory (R239); no word was fetched. Safe. -/
  | fetchBounds (pc : Word)
  /-- Raised by DRW with a height above 15 (R241); no instruction word reaches it. Safe. -/
  | spriteSize (pc word : Word)
  /-- Raised by DRW, LD B, LD [I], LD Vx,[I] at a data address of 4096 or more (R240). The address is the exact
  `I + k`, which can pass 16 bits. Safe. -/
  | dataBounds (pc word : Word) (addr : Nat)
  /-- Raised by the loader port (R242), never by a step. Safe. -/
  | programLoad (error : LoadError)
  deriving DecidableEq, Repr

/-- Reasons for having no meaning. -/
inductive Refusal where
  /-- Raised by an arm of `exec` whose instruction has no meaning yet; no arm of this model does. Safe. -/
  | notModelled (mnemonic : String)
  deriving DecidableEq, Repr

/-- An event on an output port (44_peripheral_ports.md R214, R215). -/
inductive PortEvent where
  /-- `DtWrite(v)`: the delay timer is set. -/
  | dtWrite (v : Byte)
  /-- `StWrite(v)`: the sound timer is set. -/
  | stWrite (v : Byte)
  deriving DecidableEq, Repr

/-- The state tuple of 10_state.md R20, and the model's own `draws` and `events` (log entries 2 and 3). -/
structure State where
  /-- `M`, 4096 bytes (20_memory.md R50). -/
  mem : Memory
  /-- `V[0]` to `V[15]`; `V[15]` is also the flag register (R21, R23). -/
  V : Vector Byte 16
  /-- The address register (R26). -/
  I : Word
  /-- The program counter; during a step, the address of the instruction being executed (R27). -/
  pc : Word
  /-- The number of live stack entries, 0 to 16 (R30). -/
  sp : Fin 17
  /-- The return addresses; entries at and above `sp` are stale (R30, R32). -/
  stack : Vector Word 16
  /-- The 64 x 32 bitmap (R33). -/
  fb : Framebuffer
  /-- The fault status (R34). -/
  halted : Option Fault
  /-- The model's own: how many port answers have been taken; the index of the next free value (log entry 2). -/
  draws : Nat
  /-- The model's own: the port events emitted so far, oldest first (log entry 3). -/
  events : List PortEvent
  deriving DecidableEq, Repr

/-- What one step or one meaning answers. -/
abbrev Result := Host.Outcome State Fault Refusal

/-- Reset is CPU construction (10_state.md R37, 70_reset_and_hazards.md R270). Unlisted memory reads as the font and
zeros. -/
def State.reset : State where
  mem := []
  V := Vector.replicate 16 0#8
  I := 0#16
  pc := Params.pcReset
  sp := 0
  stack := Vector.replicate 16 0#16
  fb := Vector.replicate 32 0#64
  halted := none
  draws := 0
  events := []

end Sys2Proof.Machine
end

