-- ==== Sys2Proof/Machine/Memory.lean ====
section
/-! DEFINITION. The one address space (20_memory.md R50 to R59): what it holds at reset, and reading and writing one
byte, from which every wider access is built. -/

namespace Sys2Proof.Machine

/-- The font, five bytes a glyph, glyph of digit `d` at place `d` (20_memory.md R57; log entry 6). -/
def fontGlyphs : List (List Byte) :=
  [[0xF0, 0x90, 0x90, 0x90, 0xF0], [0x20, 0x60, 0x20, 0x20, 0x70],
   [0xF0, 0x10, 0xF0, 0x80, 0xF0], [0xF0, 0x10, 0xF0, 0x10, 0xF0],
   [0x90, 0x90, 0xF0, 0x10, 0x10], [0xF0, 0x80, 0xF0, 0x10, 0xF0],
   [0xF0, 0x80, 0xF0, 0x90, 0xF0], [0xF0, 0x10, 0x20, 0x40, 0x40],
   [0xF0, 0x90, 0xF0, 0x90, 0xF0], [0xF0, 0x90, 0xF0, 0x10, 0xF0],
   [0xF0, 0x90, 0xF0, 0x90, 0x90], [0xE0, 0x90, 0xE0, 0x90, 0xE0],
   [0xF0, 0x80, 0x80, 0x80, 0xF0], [0xE0, 0x90, 0x90, 0x90, 0xE0],
   [0xF0, 0x80, 0xF0, 0x80, 0xF0], [0xF0, 0x80, 0xF0, 0x80, 0x80]]

/-- What an address reads as when nothing has written it: its reset contents (10_state.md R37), the font at
0x000-0x04F and zero elsewhere. -/
def Memory.initialByte (a : Nat) : Byte :=
  if Params.fontBase ≤ a ∧ a < Params.fontBase + 80 then
    ((fontGlyphs[(a - Params.fontBase) / 5]?).bind (fun g => g[(a - Params.fontBase) % 5]?)).getD 0#8
  else 0#8

/-- The canonical form of the entries at addresses from `lo` on. -/
def Memory.wfFrom (lo : Nat) : Memory → Bool
  | [] => true
  | (a, v) :: m =>
    decide (lo ≤ a) && decide (a < Config.memSize) && decide (v ≠ initialByte a) && wfFrom (a + 1) m

/-- The canonical form: addresses strictly rising and inside memory, no entry equal to what its address reads as
unlisted. -/
def Memory.wf (m : Memory) : Bool := wfFrom 0 m

/-- The entry at an address, if one is listed. -/
def Memory.lookup (a : Nat) : Memory → Option Byte
  | [] => none
  | (b, v) :: m => if b = a then some v else lookup a m

/-- The byte at an address: the last one written there, else the reset contents (20_memory.md R56). -/
def Memory.read (m : Memory) (a : Nat) : Byte := (lookup a m).getD (initialByte a)

/-- The memory without the entry at `a`. -/
def Memory.erase (a : Nat) : Memory → Memory
  | [] => []
  | (b, v) :: m => if b = a then erase a m else (b, v) :: erase a m

/-- The memory with an entry put at its place in the order. -/
def Memory.insert (a : Nat) (v : Byte) : Memory → Memory
  | [] => [(a, v)]
  | (b, w) :: m => if a < b then (a, v) :: (b, w) :: m else (b, w) :: insert a v m

/-- A byte written: listed unless it is what the address reads as unlisted. -/
def Memory.write (m : Memory) (a : Nat) (v : Byte) : Memory :=
  if v = initialByte a then erase a m else insert a v (erase a m)

/-- Consecutive bytes from `a` (ascending addresses). -/
def Memory.readBytes (m : Memory) (a n : Nat) : List Byte := (List.range n).map (fun k => m.read (a + k))

/-- Consecutive bytes written from `a`, in increasing address order (92_eei_decisions.md D35). -/
def Memory.writeBytes (m : Memory) (a : Nat) : List Byte → Memory
  | [] => m
  | v :: vs => writeBytes (m.write a v) (a + 1) vs

end Sys2Proof.Machine
end

