-- ==== Sys2Proof/Machine/Display.lean ====
section
/-! DEFINITION. The Display's four operations (43_display.md R180 to R184) and the sprite loop of DRW (R187 to R190).
Coordinates are exact numbers; wrapping is reduction modulo 64 and 32 before indexing (R182). -/

namespace Sys2Proof.Machine

/-- `clear()`: every pixel off (R181). -/
def Framebuffer.clear : Framebuffer := Vector.replicate 32 0#64

/-- `toggle_pixel(x, y)`: the pixel at column `x mod 64` of row `y mod 32` flips (R182). -/
def Framebuffer.togglePixel (fb : Framebuffer) (x y : Nat) : Framebuffer :=
  have hy : y % 32 < 32 := Nat.mod_lt y (by decide)
  fb.set (y % 32) (fb[y % 32] ^^^ BitVec.twoPow 64 (63 - x % 64)) hy

/-- `get_pixel(x, y)`: the same wrapped addressing, read only (R183). -/
def Framebuffer.getPixel (fb : Framebuffer) (x y : Nat) : Bool :=
  have hy : y % 32 < 32 := Nat.mod_lt y (by decide)
  (fb[y % 32]).getLsbD (63 - x % 64)

/-- `render()`: 32 rows from the top, each of 64 pixels from the left (R184). -/
def Framebuffer.render (fb : Framebuffer) : List (List Bool) :=
  (List.range 32).map (fun r => (List.range 64).map (fun c => fb.getPixel c r))

/-- Bit `b` of a sprite row, `b = 0` the most significant (R188). -/
def spriteBit (row : Byte) (b : Nat) : Bool := row.getLsbD (7 - b)

/-- One bit of a sprite row drawn at column `x`, row `y`: a zero bit does nothing; a one bit toggles its pixel, and
hits when that pixel was on (R187, R189). The pair is the framebuffer and whether any bit has hit so far. -/
def drawBit (on : Bool) (x y : Nat) (acc : Framebuffer × Bool) : Framebuffer × Bool :=
  if on then (acc.1.togglePixel x y, acc.2 || acc.1.getPixel x y) else acc

/-- One sprite row from column `x`, most significant bit first. -/
def drawRow (row : Byte) (x y : Nat) (acc : Framebuffer × Bool) : Framebuffer × Bool :=
  (List.range 8).foldl (fun a b => drawBit (spriteBit row b) (x + b) y a) acc

/-- Sprite rows from row `y` down; the x cursor restarts at the base column on every row (R188). -/
def drawRows (x : Nat) : Nat → List Byte → Framebuffer × Bool → Framebuffer × Bool
  | _, [], acc => acc
  | y, row :: rows, acc => drawRows x (y + 1) rows (drawRow row x y acc)

/-- A whole sprite drawn at base column `x`, base row `y`: the new framebuffer and the collision. -/
def drawSprite (rows : List Byte) (x y : Nat) (fb : Framebuffer) : Framebuffer × Bool :=
  drawRows x y rows (fb, false)

end Sys2Proof.Machine
end

