-- ==== Sys2Proof/Machine/Flags.lean ====
section
/-! DEFINITION. The flag computations and the 8-bit results beside them (10_state.md R23 to R25; 41_alu.md R130). Each
flag is of the operands as they were before any write. -/

namespace Sys2Proof.Machine

/-- The flag register is `V[15]` (10_state.md R23). -/
def flagReg : Reg := 15

/-- What a flag write stores: 0x01 or 0x00 (R23). -/
def bool01 (b : Bool) : Byte := if b then 0x01#8 else 0x00#8

/-- ADD: the exact sum exceeds 255 (41_alu.md R137). -/
def addCarry (a b : Byte) : Bool := decide (255 < a.toNat + b.toNat)

/-- The sum modulo 256. -/
def addResult (a b : Byte) : Byte := BitVec.ofNat 8 (a.toNat + b.toNat)

/-- SUB and SUBN, minuend first: no borrow, by strict comparison; 0 at equality (R138, R140; 90_conflicts.md C5). -/
def noBorrow (a b : Byte) : Bool := decide (b.toNat < a.toNat)

/-- The difference modulo 256, minuend first. -/
def subResult (a b : Byte) : Byte := BitVec.ofInt 8 ((a.toNat : Int) - (b.toNat : Int))

/-- SHR: the bit shifted out is bit 0 (R139). -/
def shrFlag (a : Byte) : Bool := a.getLsbD 0

/-- `a >> 1`. -/
def shrResult (a : Byte) : Byte := a >>> 1

/-- SHL: the bit shifted out is bit 7 (R141). -/
def shlFlag (a : Byte) : Bool := a.getLsbD 7

/-- `(a << 1) mod 256`. -/
def shlResult (a : Byte) : Byte := a <<< 1

end Sys2Proof.Machine
end

