-- ==== Sys2Proof/Syntax.lean ====
section
/-! DEFINITION. The 35 instructions of 30_encoding.md R76, one constructor per row of opcode_table.json, in its order.

Where the decoder ignores a nibble (R77) the constructor keeps it (`ign`): no meaning reads it, but the fault record
of a step holds the word that was fetched (10_state.md R34), and with the nibble kept the word is the instruction's
own encoding. -/

namespace Sys2Proof

inductive Instr where
  /-- `0?00` NOP -/
  | nop (ign : Nibble)
  /-- `0?E0` CLS -/
  | cls (ign : Nibble)
  /-- `0?EE` RET -/
  | ret (ign : Nibble)
  /-- `1nnn` JP addr -/
  | jp (nnn : Addr12)
  /-- `2nnn` CALL addr -/
  | call (nnn : Addr12)
  /-- `3xkk` SE Vx, byte -/
  | seImm (x : Reg) (kk : Byte)
  /-- `4xkk` SNE Vx, byte -/
  | sneImm (x : Reg) (kk : Byte)
  /-- `5xy?` SE Vx, Vy -/
  | seReg (x y : Reg) (ign : Nibble)
  /-- `6xkk` LD Vx, byte -/
  | ldImm (x : Reg) (kk : Byte)
  /-- `7xkk` ADD Vx, byte -/
  | addImm (x : Reg) (kk : Byte)
  /-- `8xy0` LD Vx, Vy -/
  | ldReg (x y : Reg)
  /-- `8xy1` OR Vx, Vy -/
  | orReg (x y : Reg)
  /-- `8xy2` AND Vx, Vy -/
  | andReg (x y : Reg)
  /-- `8xy3` XOR Vx, Vy -/
  | xorReg (x y : Reg)
  /-- `8xy4` ADD Vx, Vy -/
  | addReg (x y : Reg)
  /-- `8xy5` SUB Vx, Vy -/
  | sub (x y : Reg)
  /-- `8x?6` SHR Vx -/
  | shr (x : Reg) (ign : Nibble)
  /-- `8xy7` SUBN Vx, Vy -/
  | subn (x y : Reg)
  /-- `8x?E` SHL Vx -/
  | shl (x : Reg) (ign : Nibble)
  /-- `9xy?` SNE Vx, Vy -/
  | sneReg (x y : Reg) (ign : Nibble)
  /-- `Annn` LD I, addr -/
  | ldI (nnn : Addr12)
  /-- `Bnnn` JP V0, addr -/
  | jpV0 (nnn : Addr12)
  /-- `Cxkk` RND Vx, byte -/
  | rnd (x : Reg) (kk : Byte)
  /-- `Dxyn` DRW Vx, Vy, nibble. The height is a number, not a nibble: the spec keeps the sprite-size check for a
  handler that is given a height directly (43_display.md R191); only heights up to 15 are well formed. -/
  | drw (x y : Reg) (n : Nat)
  /-- `Ex9E` SKP Vx -/
  | skp (x : Reg)
  /-- `ExA1` SKNP Vx -/
  | sknp (x : Reg)
  /-- `Fx07` LD Vx, DT -/
  | ldVxDT (x : Reg)
  /-- `Fx0A` LD Vx, K -/
  | ldVxK (x : Reg)
  /-- `Fx15` LD DT, Vx -/
  | ldDTVx (x : Reg)
  /-- `Fx18` LD ST, Vx -/
  | ldSTVx (x : Reg)
  /-- `Fx1E` ADD I, Vx -/
  | addI (x : Reg)
  /-- `Fx29` LD F, Vx -/
  | ldF (x : Reg)
  /-- `Fx33` LD B, Vx -/
  | ldB (x : Reg)
  /-- `Fx55` LD [I], Vx -/
  | storeRegs (x : Reg)
  /-- `Fx65` LD Vx, [I] -/
  | loadRegs (x : Reg)
  deriving DecidableEq, Repr

end Sys2Proof
end

