-- ==== Sys2Proof/Decode.lean ====
section
/-! DEFINITION. Decoding (30_encoding.md R70 to R79), total on any bytes and rejecting by name, and the encoder,
written from the same patterns of R76. -/

namespace Sys2Proof

/-- Why bytes are no instruction (30_encoding.md R78), by the group whose selector is not recognised. -/
inductive Reject where
  /-- Group 0x0 and the low byte is none of 0x00, 0xE0, 0xEE. -/
  | group0 (kk : Byte)
  /-- Group 0x8 and the low nibble is none of 0 to 7, 0xE. -/
  | group8 (n : Nibble)
  /-- Group 0xE and the low byte is neither 0x9E nor 0xA1. -/
  | groupE (kk : Byte)
  /-- Group 0xF and the low byte is none of the nine selectors. -/
  | groupF (kk : Byte)
  /-- Fewer than two bytes: no instruction word (30_encoding.md R70). -/
  | truncated
  deriving DecidableEq, Repr

/-! ## Fields of an instruction word (30_encoding.md R72) -/

/-- `w[15:12]`. -/
def fieldOp (w : Word) : Nibble := w.extractLsb' 12 4

/-- `w[11:8]`. -/
def fieldX (w : Word) : Nibble := w.extractLsb' 8 4

/-- `w[7:4]`. -/
def fieldY (w : Word) : Nibble := w.extractLsb' 4 4

/-- `w[3:0]`. -/
def fieldN (w : Word) : Nibble := w.extractLsb' 0 4

/-- `w[7:0]`. -/
def fieldKK (w : Word) : Byte := w.extractLsb' 0 8

/-- `w[11:0]`. -/
def fieldNNN (w : Word) : Addr12 := w.extractLsb' 0 12

/-- The register a 4-bit selector names; there is no register-index fault (10_state.md R21). -/
def regOf (b : Nibble) : Reg := ⟨b.toNat, b.isLt⟩

/-- The 4-bit selector of a register. -/
def regBits (r : Reg) : Nibble := BitVec.ofNat 4 r.val

/-- The instruction word of two bytes in memory order: the first is the high byte (20_memory.md R54). -/
def wordOfBytes (hi lo : Byte) : Word := hi ++ lo

/-- `w[15:8]`, the byte at the lower address. -/
def highByte (w : Word) : Byte := w.extractLsb' 8 8

/-- `w[7:0]`, the byte at the higher address. -/
def lowByte (w : Word) : Byte := w.extractLsb' 0 8

/-! ## Dispatch (30_encoding.md R75, R76) -/

/-- Group 0x0: the selector is the low byte, the x nibble is ignored. -/
def decodeGroup0 (w : Word) : Except Reject Instr :=
  if fieldKK w = 0x00#8 then .ok (.nop (fieldX w))
  else if fieldKK w = 0xE0#8 then .ok (.cls (fieldX w))
  else if fieldKK w = 0xEE#8 then .ok (.ret (fieldX w))
  else .error (.group0 (fieldKK w))

/-- Group 0x8: the selector is the low nibble. -/
def decodeGroup8 (w : Word) : Except Reject Instr :=
  let x := regOf (fieldX w)
  let y := regOf (fieldY w)
  if fieldN w = 0x0#4 then .ok (.ldReg x y)
  else if fieldN w = 0x1#4 then .ok (.orReg x y)
  else if fieldN w = 0x2#4 then .ok (.andReg x y)
  else if fieldN w = 0x3#4 then .ok (.xorReg x y)
  else if fieldN w = 0x4#4 then .ok (.addReg x y)
  else if fieldN w = 0x5#4 then .ok (.sub x y)
  else if fieldN w = 0x6#4 then .ok (.shr x (fieldY w))
  else if fieldN w = 0x7#4 then .ok (.subn x y)
  else if fieldN w = 0xE#4 then .ok (.shl x (fieldY w))
  else .error (.group8 (fieldN w))

/-- Group 0xE: the selector is the low byte. -/
def decodeGroupE (w : Word) : Except Reject Instr :=
  if fieldKK w = 0x9E#8 then .ok (.skp (regOf (fieldX w)))
  else if fieldKK w = 0xA1#8 then .ok (.sknp (regOf (fieldX w)))
  else .error (.groupE (fieldKK w))

/-- Group 0xF: the selector is the low byte. -/
def decodeGroupF (w : Word) : Except Reject Instr :=
  let x := regOf (fieldX w)
  if fieldKK w = 0x07#8 then .ok (.ldVxDT x)
  else if fieldKK w = 0x0A#8 then .ok (.ldVxK x)
  else if fieldKK w = 0x15#8 then .ok (.ldDTVx x)
  else if fieldKK w = 0x18#8 then .ok (.ldSTVx x)
  else if fieldKK w = 0x1E#8 then .ok (.addI x)
  else if fieldKK w = 0x29#8 then .ok (.ldF x)
  else if fieldKK w = 0x33#8 then .ok (.ldB x)
  else if fieldKK w = 0x55#8 then .ok (.storeRegs x)
  else if fieldKK w = 0x65#8 then .ok (.loadRegs x)
  else .error (.groupF (fieldKK w))

/-- The instruction of a word: routed on `op`, then on the group's selector. -/
def decodeWord (w : Word) : Except Reject Instr :=
  if fieldOp w = 0x0#4 then decodeGroup0 w
  else if fieldOp w = 0x1#4 then .ok (.jp (fieldNNN w))
  else if fieldOp w = 0x2#4 then .ok (.call (fieldNNN w))
  else if fieldOp w = 0x3#4 then .ok (.seImm (regOf (fieldX w)) (fieldKK w))
  else if fieldOp w = 0x4#4 then .ok (.sneImm (regOf (fieldX w)) (fieldKK w))
  else if fieldOp w = 0x5#4 then .ok (.seReg (regOf (fieldX w)) (regOf (fieldY w)) (fieldN w))
  else if fieldOp w = 0x6#4 then .ok (.ldImm (regOf (fieldX w)) (fieldKK w))
  else if fieldOp w = 0x7#4 then .ok (.addImm (regOf (fieldX w)) (fieldKK w))
  else if fieldOp w = 0x8#4 then decodeGroup8 w
  else if fieldOp w = 0x9#4 then .ok (.sneReg (regOf (fieldX w)) (regOf (fieldY w)) (fieldN w))
  else if fieldOp w = 0xA#4 then .ok (.ldI (fieldNNN w))
  else if fieldOp w = 0xB#4 then .ok (.jpV0 (fieldNNN w))
  else if fieldOp w = 0xC#4 then .ok (.rnd (regOf (fieldX w)) (fieldKK w))
  else if fieldOp w = 0xD#4 then .ok (.drw (regOf (fieldX w)) (regOf (fieldY w)) (fieldN w).toNat)
  else if fieldOp w = 0xE#4 then decodeGroupE w
  else decodeGroupF w -- 0xF, the one value left

/-- Decoding of bytes in memory order: the instruction and the bytes after it. Every instruction is two bytes
(30_encoding.md R70). -/
def decode : List Byte → Except Reject (Instr × List Byte)
  | hi :: lo :: rest => (decodeWord (wordOfBytes hi lo)).map (fun i => (i, rest))
  | _ => .error .truncated

/-! ## The encoder (30_encoding.md R73, R76) -/

/-- Format NNN. -/
def wordNNN (op : Nibble) (nnn : Addr12) : Word := op ++ nnn

/-- Formats XKK, XSEL and ZSEL: a selector byte stands where the immediate does. -/
def wordXKK (op x : Nibble) (kk : Byte) : Word := (op ++ x : BitVec 8) ++ kk

/-- Format XYN. -/
def wordXYN (op x y n : Nibble) : Word := (op ++ x : BitVec 8) ++ (y ++ n : BitVec 8)

/-- The word of an instruction. A sprite height that no word can hold is cut to its low four bits (log entry 10). -/
def encode : Instr → Word
  | .nop ign => wordXKK 0x0#4 ign 0x00#8
  | .cls ign => wordXKK 0x0#4 ign 0xE0#8
  | .ret ign => wordXKK 0x0#4 ign 0xEE#8
  | .jp nnn => wordNNN 0x1#4 nnn
  | .call nnn => wordNNN 0x2#4 nnn
  | .seImm x kk => wordXKK 0x3#4 (regBits x) kk
  | .sneImm x kk => wordXKK 0x4#4 (regBits x) kk
  | .seReg x y ign => wordXYN 0x5#4 (regBits x) (regBits y) ign
  | .ldImm x kk => wordXKK 0x6#4 (regBits x) kk
  | .addImm x kk => wordXKK 0x7#4 (regBits x) kk
  | .ldReg x y => wordXYN 0x8#4 (regBits x) (regBits y) 0x0#4
  | .orReg x y => wordXYN 0x8#4 (regBits x) (regBits y) 0x1#4
  | .andReg x y => wordXYN 0x8#4 (regBits x) (regBits y) 0x2#4
  | .xorReg x y => wordXYN 0x8#4 (regBits x) (regBits y) 0x3#4
  | .addReg x y => wordXYN 0x8#4 (regBits x) (regBits y) 0x4#4
  | .sub x y => wordXYN 0x8#4 (regBits x) (regBits y) 0x5#4
  | .shr x ign => wordXYN 0x8#4 (regBits x) ign 0x6#4
  | .subn x y => wordXYN 0x8#4 (regBits x) (regBits y) 0x7#4
  | .shl x ign => wordXYN 0x8#4 (regBits x) ign 0xE#4
  | .sneReg x y ign => wordXYN 0x9#4 (regBits x) (regBits y) ign
  | .ldI nnn => wordNNN 0xA#4 nnn
  | .jpV0 nnn => wordNNN 0xB#4 nnn
  | .rnd x kk => wordXKK 0xC#4 (regBits x) kk
  | .drw x y n => wordXYN 0xD#4 (regBits x) (regBits y) (BitVec.ofNat 4 n)
  | .skp x => wordXKK 0xE#4 (regBits x) 0x9E#8
  | .sknp x => wordXKK 0xE#4 (regBits x) 0xA1#8
  | .ldVxDT x => wordXKK 0xF#4 (regBits x) 0x07#8
  | .ldVxK x => wordXKK 0xF#4 (regBits x) 0x0A#8
  | .ldDTVx x => wordXKK 0xF#4 (regBits x) 0x15#8
  | .ldSTVx x => wordXKK 0xF#4 (regBits x) 0x18#8
  | .addI x => wordXKK 0xF#4 (regBits x) 0x1E#8
  | .ldF x => wordXKK 0xF#4 (regBits x) 0x29#8
  | .ldB x => wordXKK 0xF#4 (regBits x) 0x33#8
  | .storeRegs x => wordXKK 0xF#4 (regBits x) 0x55#8
  | .loadRegs x => wordXKK 0xF#4 (regBits x) 0x65#8

/-- The bytes of an instruction in memory order (20_memory.md R54). -/
def encodeBytes (i : Instr) : List Byte := [highByte (encode i), lowByte (encode i)]

/-! ## The host's view -/

/-- The instruction word whose bits `opcode_table.json` numbers as `w` does: one 16-bit word, so the number is the
word; bits at and above `nbits` are zero. -/
def tableWord (nbits w : Nat) : Word := BitVec.ofNat 16 (w % 2 ^ nbits)

/-- What the decoder reads from that word laid out as the hardware stores it: high byte first. -/
def decodeTableWord (nbits w : Nat) : Option Instr :=
  match decode [highByte (tableWord nbits w), lowByte (tableWord nbits w)] with
  | .ok (i, _) => some i
  | .error _ => none

end Sys2Proof
end

