-- ==== Sys2Proof/Machine/Operands.lean ====
section
/-! DEFINITION. Operand forms: registers, zero-extended immediates and addresses (30_encoding.md R74), the one memory
form `I + k` (20_memory.md R53), glyph addresses and decimal digits (42_index_memory.md R162, R163). -/

namespace Sys2Proof.Machine

/-- A general register's value (10_state.md R21). -/
def State.getV (s : State) (x : Reg) : Byte := s.V[x.val]'x.isLt

/-- `zext_16(nnn)` (30_encoding.md R74). -/
def zextAddr (nnn : Addr12) : Word := nnn.setWidth 16

/-- `zext_16(v)` of a byte. -/
def zextByte (v : Byte) : Word := v.setWidth 16

/-- `ea = I + k`, an exact number (20_memory.md R53). -/
def State.ea (s : State) (k : Nat) : Nat := s.I.toNat + k

/-- The lowest failing address of an access to `n` bytes at `I`, if one fails (20_memory.md R53,
60_exceptions.md R235). -/
def State.firstOutOfRange (s : State) (n : Nat) : Option Nat :=
  ((List.range n).map s.ea).find? (fun a => decide (Config.memSize ≤ a))

/-- The digit of a register value for LD F: unmasked, or its low nibble under `FX29_MASK_LOW_NIBBLE` (R162). -/
def fontDigit (v : Byte) : Nat := if Params.fx29MaskLowNibble then v.toNat % 16 else v.toNat

/-- The address of a digit's glyph: `FONT_BASE + 5 * d` (R162). -/
def glyphAddr (d : Nat) : Word := BitVec.ofNat 16 (Params.fontBase + Params.fontGlyphBytes * d)

/-- The hundreds, tens and ones of a byte (R163). -/
def decimalDigits (v : Byte) : List Byte :=
  [BitVec.ofNat 8 (v.toNat / 100), BitVec.ofNat 8 (v.toNat / 10 % 10), BitVec.ofNat 8 (v.toNat % 10)]

/-- `V[0]` to `V[x]`, in order (R164). -/
def State.regsUpTo (s : State) (x : Reg) : List Byte := s.V.toList.take (x.val + 1)

/-- A register file with `V[k]`, `V[k+1]`, … replaced by the bytes of a list (R165). -/
def fillRegs : List Byte → Nat → Vector Byte 16 → Vector Byte 16
  | [], _, V => V
  | b :: bs, k, V => fillRegs bs (k + 1) (V.setIfInBounds k b)

end Sys2Proof.Machine
end

