-- ==== Sys2Proof/Machine/Ops.lean ====
section
/-! DEFINITION. The named operations over the state: one writer for each field, raising a fault, the advance of the
program counter, the stack, checked data accesses, ports, the fetch, and the loader. -/

namespace Sys2Proof.Machine

/-! ## Writers, one for each field -/

/-- `V[x] <- v`. -/
def State.setV (s : State) (x : Reg) (v : Byte) : State := { s with V := s.V.set x.val v x.isLt }

/-- The whole register file. -/
def State.setRegs (s : State) (V : Vector Byte 16) : State := { s with V := V }

/-- `I <- v`. -/
def State.setI (s : State) (v : Word) : State := { s with I := v }

/-- `pc <- target`. -/
def State.setPc (s : State) (target : Word) : State := { s with pc := target }

/-- The whole memory. -/
def State.setMem (s : State) (m : Memory) : State := { s with mem := m }

/-- The whole framebuffer. -/
def State.setFb (s : State) (fb : Framebuffer) : State := { s with fb := fb }

/-- A flag write, into `V[15]` (10_state.md R23). -/
def State.setFlag (s : State) (b : Bool) : State := s.setV flagReg (bool01 b)

/-- One more port answer taken (log entry 2). -/
def State.countDraw (s : State) : State := { s with draws := s.draws + 1 }

/-- A port event emitted (log entry 3). -/
def State.emit (s : State) (e : PortEvent) : State := { s with events := s.events ++ [e] }

/-- The fault status written. -/
def State.halt (s : State) (f : Fault) : State := { s with halted := some f }

/-! ## Faults

`raise` is this block's taking of an exception: it has no vector, no handler and no saved registers (60_exceptions.md
R230, R244). There is no return from one: a halted block takes no further step (R234), and only reset clears the
record. -/

/-- `raise K(info)`: the step ends with every piece of state as it was before the step, and the record in `halted`
(00_scope.md R12, 60_exceptions.md R233; log entry 1). -/
def raise (s : State) (f : Fault) : Result := .next (s.halt f)

/-- The kinds of fault (60_exceptions.md R231). -/
inductive FaultKind where
  | decodeError | stackOverflow | stackUnderflow | fetchBounds | spriteSize | dataBounds | programLoad
  deriving DecidableEq, Repr

/-- The kind a record holds. -/
def Fault.kind : Fault → FaultKind
  | .decodeError _ _ => .decodeError
  | .stackOverflow _ _ => .stackOverflow
  | .stackUnderflow _ _ => .stackUnderflow
  | .fetchBounds _ => .fetchBounds
  | .spriteSize _ _ => .spriteSize
  | .dataBounds _ _ _ => .dataBounds
  | .programLoad _ => .programLoad

/-- The numbers of the kinds (92_eei_decisions.md D24). -/
def FaultKind.code : FaultKind → Nat
  | .decodeError => 1
  | .stackOverflow => 2
  | .stackUnderflow => 3
  | .fetchBounds => 4
  | .spriteSize => 5
  | .dataBounds => 6
  | .programLoad => 7

/-- The number a record holds. -/
def Fault.code (f : Fault) : Nat := f.kind.code

/-- The `pc` of the faulting step; the loader port's fault has none. -/
def Fault.pcOf : Fault → Option Word
  | .decodeError pc _ | .stackOverflow pc _ | .stackUnderflow pc _ | .fetchBounds pc | .spriteSize pc _
  | .dataBounds pc _ _ => some pc
  | .programLoad _ => none

/-- The instruction word, where the fetch succeeded (10_state.md R34). -/
def Fault.wordOf : Fault → Option Word
  | .decodeError _ w | .stackOverflow _ w | .stackUnderflow _ w | .spriteSize _ w | .dataBounds _ w _ => some w
  | .fetchBounds _ | .programLoad _ => none

/-- The memory address, for a data-bounds fault and for a loader write out of range. -/
def Fault.addrOf : Fault → Option Nat
  | .dataBounds _ _ a | .programLoad (.addressOutOfRange a) => some a
  | .decodeError _ _ | .stackOverflow _ _ | .stackUnderflow _ _ | .fetchBounds _ | .spriteSize _ _
  | .programLoad (.imageTooLong _) => none

/-! ## The program counter (30_encoding.md R81) -/

/-- Sequential: `pc + 2`. -/
def State.advance (s : State) : State := s.setPc (s.pc + 2#16)

/-- Skip: `pc + 4` if the condition holds, else `pc + 2`. -/
def State.skipIf (s : State) (c : Bool) : State := s.setPc (s.pc + if c then 4#16 else 2#16)

/-! ## The stack (10_state.md R30 to R32) -/

/-- The stack with `pc` pushed: `stack[sp] <- pc`, then `sp <- sp + 1`; none when it is full. -/
def State.push (s : State) : Option State :=
  if h : s.sp.val < 16 then
    some { s with stack := s.stack.set s.sp.val s.pc h, sp := ⟨s.sp.val + 1, by omega⟩ }
  else none

/-- The top entry and the state after it is popped: `sp <- sp - 1`, then `stack[sp]` is read and not cleared; none
when the stack is empty. -/
def State.pop (s : State) : Option (Word × State) :=
  if h : 0 < s.sp.val then
    some (s.stack[s.sp.val - 1]'(by omega), { s with sp := ⟨s.sp.val - 1, by omega⟩ })
  else none

/-! ## Checked data accesses (20_memory.md R53) -/

/-- An access of instruction `i` to `n` bytes at `I`: every address is checked before anything is written
(60_exceptions.md R233), and the lowest failing one is reported (R235). -/
def withDataRange (s : State) (i : Instr) (n : Nat) (k : State → Result) : Result :=
  match s.firstOutOfRange n with
  | some a => raise s (.dataBounds s.pc (encode i) a)
  | none => k s

/-! ## Fetch (30_encoding.md R71) -/

/-- The instruction word at `pc`, high byte first; none when `pc + 1` is outside memory. -/
def State.fetch (s : State) : Option Word :=
  if s.pc.toNat + 1 < Config.memSize then
    some (wordOfBytes (s.mem.read s.pc.toNat) (s.mem.read (s.pc.toNat + 1)))
  else none

/-- The state with an instruction word stored at `pc`, high byte first. -/
def State.placeWord (s : State) (w : Word) : State :=
  s.setMem ((s.mem.write s.pc.toNat (highByte w)).write (s.pc.toNat + 1) (lowByte w))

/-! ## The loader port and the display read port (60_exceptions.md R251, R252) -/

/-- `write_byte(address, value)`. A halted block is left as it is (log entry 11). -/
def State.loaderWrite (s : State) (a : Nat) (v : Byte) : State :=
  match s.halted with
  | some _ => s
  | none =>
    if a < Config.memSize then s.setMem (s.mem.write a v)
    else s.halt (.programLoad (.addressOutOfRange a))

/-- A program image placed from 0x200; one longer than `PROG_MAX_LEN` is rejected before anything is written. -/
def State.loadImage (s : State) (image : List Byte) : State :=
  match s.halted with
  | some _ => s
  | none =>
    if image.length ≤ Params.progMaxLen then s.setMem (s.mem.writeBytes Params.progBase image)
    else s.halt (.programLoad (.imageTooLong image.length))

/-- `get_pixel(x, y)` of the display read port, with byte coordinates (43_display.md R183). -/
def State.getPixel (s : State) (x y : Byte) : Bool := s.fb.getPixel x.toNat y.toNat

/-- `render()` of the display read port. -/
def State.render (s : State) : List (List Bool) := s.fb.render

end Sys2Proof.Machine
end

