-- ==== Sys2Proof/Machine/Alu.lean ====
section
/-! DEFINITION. Register and arithmetic instructions (41_alu.md). Operands are read before any write, and the result is
written before the flag (10_state.md R24). -/

namespace Sys2Proof.Machine

/-- LD Vx, byte (R131). -/
def execLdImm (x : Reg) (kk : Byte) (s : State) : Result := .next (s.setV x kk).advance

/-- ADD Vx, byte (R132): no flag. -/
def execAddImm (x : Reg) (kk : Byte) (s : State) : Result := .next (s.setV x (addResult (s.getV x) kk)).advance

/-- LD Vx, Vy (R133). -/
def execLdReg (x y : Reg) (s : State) : Result := .next (s.setV x (s.getV y)).advance

/-- OR Vx, Vy (R134). -/
def execOr (x y : Reg) (s : State) : Result := .next (s.setV x (s.getV x ||| s.getV y)).advance

/-- AND Vx, Vy (R135). -/
def execAnd (x y : Reg) (s : State) : Result := .next (s.setV x (s.getV x &&& s.getV y)).advance

/-- XOR Vx, Vy (R136). -/
def execXor (x y : Reg) (s : State) : Result := .next (s.setV x (s.getV x ^^^ s.getV y)).advance

/-- A result written to `V[x]` and then a flag to `V[15]`: for `x = 15` the flag remains (10_state.md R24). -/
def State.setResultFlag (s : State) (x : Reg) (result : Byte) (flag : Bool) : State := (s.setV x result).setFlag flag

/-- ADD Vx, Vy (R137). -/
def execAddReg (x y : Reg) (s : State) : Result :=
  .next (s.setResultFlag x (addResult (s.getV x) (s.getV y)) (addCarry (s.getV x) (s.getV y))).advance

/-- SUB Vx, Vy (R138): `V[x] - V[y]`. -/
def execSub (x y : Reg) (s : State) : Result :=
  .next (s.setResultFlag x (subResult (s.getV x) (s.getV y)) (noBorrow (s.getV x) (s.getV y))).advance

/-- SHR Vx (R139): in place, `V[y]` is not read. -/
def execShr (x : Reg) (_ign : Nibble) (s : State) : Result :=
  .next (s.setResultFlag x (shrResult (s.getV x)) (shrFlag (s.getV x))).advance

/-- SUBN Vx, Vy (R140): `V[y] - V[x]`. -/
def execSubn (x y : Reg) (s : State) : Result :=
  .next (s.setResultFlag x (subResult (s.getV y) (s.getV x)) (noBorrow (s.getV y) (s.getV x))).advance

/-- SHL Vx (R141): in place, `V[y]` is not read. -/
def execShl (x : Reg) (_ign : Nibble) (s : State) : Result :=
  .next (s.setResultFlag x (shlResult (s.getV x)) (shlFlag (s.getV x))).advance

/-- RND Vx, byte, given the port's answer. -/
def rndWith (answer : Byte) (x : Reg) (kk : Byte) (s : State) : State := (s.setV x (answer &&& kk)).advance

/-- RND Vx, byte (R142): one answer of the random-byte port is taken, whatever the mask. -/
def execRnd (x : Reg) (kk : Byte) (s : State) : Result :=
  .next (rndWith (Config.randByte s.draws) x kk s.countDraw)

end Sys2Proof.Machine
end

