-- ==== Sys2Proof/Machine/ControlFlow.lean ====
section
/-! DEFINITION. Control flow instructions (40_control_flow.md). -/

namespace Sys2Proof.Machine

/-- NOP (R101). -/
def execNop (_ign : Nibble) (s : State) : Result := .next s.advance

/-- JP addr (R102). -/
def execJp (nnn : Addr12) (s : State) : Result := .next (s.setPc (zextAddr nnn))

/-- CALL addr (R103): the pushed value is the address of this CALL. -/
def execCall (nnn : Addr12) (s : State) : Result :=
  match s.push with
  | some t => .next (t.setPc (zextAddr nnn))
  | none => raise s (.stackOverflow s.pc (encode (.call nnn)))

/-- RET (R104): to the popped value plus `RET_RESUME_OFFSET` (log entry 5; modulo 2^16, log entry 9). -/
def execRet (ign : Nibble) (s : State) : Result :=
  match s.pop with
  | some (top, t) => .next (t.setPc (top + Params.retResumeOffset))
  | none => raise s (.stackUnderflow s.pc (encode (.ret ign)))

/-- SE Vx, byte (R105). -/
def execSeImm (x : Reg) (kk : Byte) (s : State) : Result := .next (s.skipIf (s.getV x == kk))

/-- SNE Vx, byte (R106). -/
def execSneImm (x : Reg) (kk : Byte) (s : State) : Result := .next (s.skipIf (s.getV x != kk))

/-- SE Vx, Vy (R107). -/
def execSeReg (x y : Reg) (_ign : Nibble) (s : State) : Result := .next (s.skipIf (s.getV x == s.getV y))

/-- SNE Vx, Vy (R108). -/
def execSneReg (x y : Reg) (_ign : Nibble) (s : State) : Result := .next (s.skipIf (s.getV x != s.getV y))

/-- JP V0, addr (R109): an exact sum, at most 0x10FE, not reduced to 12 bits. -/
def execJpV0 (nnn : Addr12) (s : State) : Result := .next (s.setPc (zextByte (s.getV 0) + zextAddr nnn))

end Sys2Proof.Machine
end

