-- ==== Sys2Proof/Machine/DisplayInstrs.lean ====
section
/-! DEFINITION. Display instructions (43_display.md). -/

namespace Sys2Proof.Machine

/-- CLS (R186). -/
def execCls (_ign : Nibble) (s : State) : Result := .next (s.setFb Framebuffer.clear).advance

/-- DRW's effect once its checks have passed (R187): `n` sprite bytes at `I` drawn at `(V[x], V[y])`, both read before
the flag is written; then the collision flag, under `DRAW_SETS_VF` (R189). -/
def drawFrom (x y : Reg) (n : Nat) (s : State) : State :=
  let drawn := drawSprite (s.mem.readBytes (s.ea 0) n) (s.getV x).toNat (s.getV y).toNat s.fb
  let t := s.setFb drawn.1
  (if Params.drawSetsVF then t.setFlag drawn.2 else t).advance

/-- DRW Vx, Vy, nibble (R187): the sprite-size check comes first (R191), then every sprite byte address (R192). -/
def execDrw (x y : Reg) (n : Nat) (s : State) : Result :=
  if Config.spriteMaxRows < n then raise s (.spriteSize s.pc (encode (.drw x y n)))
  else withDataRange s (.drw x y n) n fun s => .next (drawFrom x y n s)

end Sys2Proof.Machine
end

