-- ==== Sys2Proof/Machine/IndexMemory.lean ====
section
/-! DEFINITION. Address register and memory instructions (42_index_memory.md). `I` is never modified by an access. -/

namespace Sys2Proof.Machine

/-- LD I, addr (R160). -/
def execLdI (nnn : Addr12) (s : State) : Result := .next (s.setI (zextAddr nnn)).advance

/-- ADD I, Vx (R161): modulo 2^16, no flag. -/
def execAddI (x : Reg) (s : State) : Result := .next (s.setI (s.I + zextByte (s.getV x))).advance

/-- LD F, Vx (R162). -/
def execLdF (x : Reg) (s : State) : Result := .next (s.setI (glyphAddr (fontDigit (s.getV x)))).advance

/-- LD B, Vx (R163): the three decimal digits at `I`, `I + 1`, `I + 2`. -/
def execLdB (x : Reg) (s : State) : Result :=
  withDataRange s (.ldB x) 3 fun s =>
    .next (s.setMem (s.mem.writeBytes (s.ea 0) (decimalDigits (s.getV x)))).advance

/-- LD [I], Vx (R164): `V[0]` to `V[x]` inclusive. -/
def execStoreRegs (x : Reg) (s : State) : Result :=
  withDataRange s (.storeRegs x) (x.val + 1) fun s =>
    .next (s.setMem (s.mem.writeBytes (s.ea 0) (s.regsUpTo x))).advance

/-- LD Vx, [I] (R165): `V[0]` to `V[x]` inclusive. -/
def execLoadRegs (x : Reg) (s : State) : Result :=
  withDataRange s (.loadRegs x) (x.val + 1) fun s =>
    .next (s.setRegs (fillRegs (s.mem.readBytes (s.ea 0) (x.val + 1)) 0 s.V)).advance

end Sys2Proof.Machine
end

