-- ==== Sys2Proof/Machine/PortInstrs.lean ====
section
/-! DEFINITION. Keyboard and timer port instructions (44_peripheral_ports.md). Each `…With` takes the port's answer;
the meaning supplies the next free value (log entry 2). -/

namespace Sys2Proof.Machine

/-- SKP Vx (R210): the port is asked about the whole byte `V[x]`. -/
def execSkp (x : Reg) (s : State) : Result :=
  .next (s.countDraw.skipIf (Config.keyDown s.draws (s.getV x)))

/-- SKNP Vx (R211). -/
def execSknp (x : Reg) (s : State) : Result :=
  .next (s.countDraw.skipIf (!Config.keyDown s.draws (s.getV x)))

/-- LD Vx, DT (R213), given the port's answer. -/
def ldDTWith (answer : Byte) (x : Reg) (s : State) : State := (s.setV x answer).advance

/-- LD Vx, DT (R213). -/
def execLdVxDT (x : Reg) (s : State) : Result := .next (ldDTWith (Config.dtRead s.draws) x s.countDraw)

/-- LD Vx, K (R212), given the port's answer: with no key the instruction is fetched again at the next step. -/
def ldKWith (answer : Option (Fin 16)) (x : Reg) (s : State) : State :=
  match answer with
  | none => s
  | some k => (s.setV x (BitVec.ofNat 8 k.val)).advance

/-- LD Vx, K (R212). -/
def execLdVxK (x : Reg) (s : State) : Result := .next (ldKWith (Config.keyWait s.draws) x s.countDraw)

/-- LD DT, Vx (R214). -/
def execLdDTVx (x : Reg) (s : State) : Result := .next (s.emit (.dtWrite (s.getV x))).advance

/-- LD ST, Vx (R215). -/
def execLdSTVx (x : Reg) (s : State) : Result := .next (s.emit (.stWrite (s.getV x))).advance

end Sys2Proof.Machine
end

