-- ==== Sys2Proof/Machine/Step.lean ====
section
/-! DEFINITION. The step cycle (30_encoding.md R80), the step port (60_exceptions.md R250) and the host's way of
placing one instruction. -/

namespace Sys2Proof.Machine

/-- One `step()`: a halted block gives its record again (R234); else fetch, decode, execute (R80). -/
def step (s : State) : Host.Outcome State Fault Refusal :=
  match s.halted with
  | some f => .fault f
  | none =>
    match s.fetch with
    | none => raise s (.fetchBounds s.pc)
    | some w =>
      match decodeWord w with
      | .error _ => raise s (.decodeError s.pc w)
      | .ok i => exec i s

/-- The step port: the state a step request leaves, and what it gives back, `none` for ok or the fault record
(60_exceptions.md R250, R234). -/
def stepPort (s : State) : State × Option Fault :=
  match step s with
  | .next t => (t, t.halted)
  | .fault f => (s, some f)
  | .refused _ => (s, s.halted)

/-- The state with an instruction word stored where the next step fetches: the two bytes at `pc`. For a state that is
not halted and whose `pc` is at most 0xFFE, as the reset state is (log entry 12). -/
def State.withFetchWord (s : State) (nbits w : Nat) : State := s.placeWord (tableWord nbits w)

end Sys2Proof.Machine
end

