-- ==== Sys2Proof/Safety.lean ====
section
/-! DEFINITION. The host's moves (60_exceptions.md R258, 70_reset_and_hazards.md R272), the states they reach, and
what a safe run is. -/

namespace Sys2Proof

/-- The advance classes of 30_encoding.md R81. -/
inductive AdvanceClass where
  | sequential | skip | replace | wait
  deriving DecidableEq, Repr

/-- The class of each instruction, as R81 lists them. -/
def Instr.advanceClass : Instr → AdvanceClass
  | .seImm _ _ | .sneImm _ _ | .seReg _ _ _ | .sneReg _ _ _ | .skp _ | .sknp _ => .skip
  | .jp _ | .call _ | .jpV0 _ | .ret _ => .replace
  | .ldVxK _ => .wait
  | .nop _ | .cls _ | .ldImm _ _ | .addImm _ _ | .ldReg _ _ | .orReg _ _ | .andReg _ _ | .xorReg _ _ | .addReg _ _
  | .sub _ _ | .shr _ _ | .subn _ _ | .shl _ _ | .ldI _ | .rnd _ _ | .drw _ _ _ | .ldVxDT _ | .ldDTVx _ | .ldSTVx _
  | .addI _ | .ldF _ | .ldB _ | .storeRegs _ | .loadRegs _ => .sequential

/-- Whether an instruction may write a general register: as its destination, as one of the registers it loads, or as
the flag register `V[15]` (10_state.md R25). -/
def Instr.mayWriteReg (i : Instr) (r : Reg) : Bool :=
  match i with
  | .ldImm x _ | .addImm x _ | .ldReg x _ | .orReg x _ | .andReg x _ | .xorReg x _ | .rnd x _ | .ldVxDT x
  | .ldVxK x => r == x
  | .addReg x _ | .sub x _ | .shr x _ | .subn x _ | .shl x _ => r == x || r == 15
  | .drw _ _ _ => r == 15
  | .loadRegs x => decide (r ≤ x)
  | .nop _ | .cls _ | .ret _ | .jp _ | .call _ | .seImm _ _ | .sneImm _ _ | .seReg _ _ _ | .sneReg _ _ _ | .ldI _
  | .jpV0 _ | .skp _ | .sknp _ | .ldDTVx _ | .ldSTVx _ | .addI _ | .ldF _ | .ldB _ | .storeRegs _ => false

end Sys2Proof

namespace Sys2Proof.Machine

/-- Boot: reset, then loader writes, all before the first step. -/
inductive Booted : State → Prop where
  | reset : Booted State.reset
  | loaderWrite {s : State} (a : Nat) (v : Byte) : Booted s → Booted (s.loaderWrite a v)
  | loadImage {s : State} (image : List Byte) : Booted s → Booted (s.loadImage image)

/-- A run from boot: after the first step the host may only call `step()`; a host write after it has no meaning here
(R258; log entry 11). -/
inductive Reachable : State → Prop where
  | boot {s : State} : Booted s → Reachable s
  | step {s t : State} : Reachable s → step s = .next t → Reachable t

/-- The block takes steps (60_exceptions.md R234, R245). -/
def State.running (s : State) : Bool := s.halted.isNone

/-- A step that is taken and raises no fault. -/
def stepsSafely (s t : State) : Prop := step s = .next t ∧ t.halted = none

/-- A safe run: from `s`, no number of steps ends in a recorded fault. -/
inductive SafeFor : Nat → State → Prop where
  | zero {s : State} : s.halted = none → SafeFor 0 s
  | succ {k : Nat} {s t : State} : stepsSafely s t → SafeFor k t → SafeFor (k + 1) s

/-- The invariant of the machine: memory in canonical form; `pc` never above 0x10FE, and no live return address that
could take it there (10_state.md R29). Stale stack entries are not constrained. -/
structure State.Inv (s : State) : Prop where
  memory : s.mem.wf = true
  pc_le : s.pc.toNat ≤ 0x10FE
  stack_le : ∀ (k : Nat) (h : k < 16), k < s.sp.val → (s.stack[k]).toNat ≤ 0xFFE

/-- What a recorded fault of a step says is true of the state it left (60_exceptions.md R231, R235 to R241): the
record names the step's `pc`, the word is the one at `pc`, and its cause holds. A sprite-size record is never true: no
instruction word reaches that fault (43_display.md R191). -/
def Fault.trueOf (s : State) : Fault → Prop
  | .fetchBounds pc => pc = s.pc ∧ Config.memSize ≤ s.pc.toNat + 1
  | .decodeError pc w => pc = s.pc ∧ s.fetch = some w ∧ ∃ e, decodeWord w = .error e
  | .stackOverflow pc w => pc = s.pc ∧ s.fetch = some w ∧ (∃ nnn, decodeWord w = .ok (.call nnn)) ∧ s.sp = 16
  | .stackUnderflow pc w => pc = s.pc ∧ s.fetch = some w ∧ (∃ ign, decodeWord w = .ok (.ret ign)) ∧ s.sp = 0
  | .spriteSize _ _ => False
  | .dataBounds pc w a =>
    pc = s.pc ∧ s.fetch = some w ∧ Config.memSize ≤ a ∧
      ∃ i n k, decodeWord w = .ok i ∧ k < n ∧ a = s.I.toNat + k ∧ (∀ j, j < k → s.I.toNat + j < Config.memSize) ∧
        (i = .ldB (regOf (fieldX w)) ∧ n = 3 ∨ i = .storeRegs (regOf (fieldX w)) ∧ n = (fieldX w).toNat + 1 ∨
          i = .loadRegs (regOf (fieldX w)) ∧ n = (fieldX w).toNat + 1 ∨
          i = .drw (regOf (fieldX w)) (regOf (fieldY w)) n ∧ n = (fieldN w).toNat)
  | .programLoad _ => True

end Sys2Proof.Machine
end

