-- ==== Sys2Proof/Certificates/Slice0/Obligations.lean ====
section
/-! DEFINITION. The statements for the provers. Words are written as the spec's concatenations of fields
(00_scope.md R10); `regBits x` is the 4-bit number of `V[x]`. `pc + 2` and `pc + 4` are sums of the 16-bit register,
exact wherever a fetch is possible, and a popped return address plus 2 is one too, exact where State.Inv holds (both log
entry 9). Every pattern but 6xkk, Dxyn and the group-0 selectors is log entry 7,
and so is what Fx07, Fx0A, Fx15, Fx18, Fx29, Fx33, Fx55 and Fx65 do; an ignored nibble that is not zero is log entry 8. -/

open Sys2Proof Sys2Proof.Machine

/-! ## Encoding -/

/-- Decoding the bytes of a well-formed instruction gives it back, with the bytes after it (30_encoding.md sections 1
to 3). -/
def Obligations.DecodeEncodeAgree : Prop :=
  ∀ (i : Instr) (rest : List Byte), i.wellFormed = true → decode (encodeBytes i ++ rest) = .ok (i, rest)

/-- The other direction: bytes the decoder accepts are the bytes of the well-formed instruction it reads, so every
accepted word has one meaning and no bit of it is dropped. -/
def Obligations.AcceptedBytesAreTheEncoding : Prop :=
  ∀ (hi lo : Byte) (rest more : List Byte) (i : Instr), decode (hi :: lo :: rest) = .ok (i, more) →
    more = rest ∧ i.wellFormed = true ∧ encodeBytes i = [hi, lo]

/-- 30_encoding.md section 4: the illegal words are exactly those of its table. Rests on the spec's own decisions D6 to
D9. -/
def Obligations.IllegalWordsExactly : Prop :=
  ∀ w : Word, (∃ e, decodeWord w = .error e) ↔
    ((fieldOp w = 0x0#4 ∧ fieldKK w ≠ 0x00#8 ∧ fieldKK w ≠ 0xE0#8 ∧ fieldKK w ≠ 0xEE#8) ∨
     (fieldOp w = 0x8#4 ∧ (fieldN w = 0x8#4 ∨ fieldN w = 0x9#4 ∨ fieldN w = 0xA#4 ∨ fieldN w = 0xB#4 ∨
        fieldN w = 0xC#4 ∨ fieldN w = 0xD#4 ∨ fieldN w = 0xF#4)) ∨
     (fieldOp w = 0xE#4 ∧ fieldKK w ≠ 0x9E#8 ∧ fieldKK w ≠ 0xA1#8) ∨
     (fieldOp w = 0xF#4 ∧ fieldKK w ≠ 0x07#8 ∧ fieldKK w ≠ 0x0A#8 ∧ fieldKK w ≠ 0x15#8 ∧ fieldKK w ≠ 0x18#8 ∧
        fieldKK w ≠ 0x1E#8 ∧ fieldKK w ≠ 0x29#8 ∧ fieldKK w ≠ 0x33#8 ∧ fieldKK w ≠ 0x55#8 ∧ fieldKK w ≠ 0x65#8))

/-- R72: the six fields of any word, as numbers. -/
def Obligations.WordFieldsAreBitRanges : Prop :=
  ∀ w : Word, (fieldOp w).toNat = w.toNat / 4096 ∧ (fieldX w).toNat = w.toNat / 256 % 16 ∧
    (fieldY w).toNat = w.toNat / 16 % 16 ∧ (fieldN w).toNat = w.toNat % 16 ∧ (fieldKK w).toNat = w.toNat % 256 ∧
    (fieldNNN w).toNat = w.toNat % 4096

/-- A word of each family, written out from 30_encoding.md section 3, decodes to its instruction. The first two are
the source's own examples (95_test_vectors.md W10). -/
def Obligations.SampleWordsDecode : Prop :=
  decodeWord 0b0110001100000101#16 = .ok (.ldImm 3 0x05#8) ∧
  decodeWord 0b1101000100100101#16 = .ok (.drw 1 2 5) ∧
  decodeWord 0b0010001000001010#16 = .ok (.call 0x20A#12) ∧
  decodeWord 0b1000111100000101#16 = .ok (.sub 15 0) ∧
  decodeWord 0b1111101000110011#16 = .ok (.ldB 10) ∧
  decodeWord 0b1110000110100001#16 = .ok (.sknp 1)

/-! ## The step -/

/-- When the two bytes at `pc`, high byte first, are an instruction, a step of a block that is not halted is exactly
that instruction's execution: nothing is added around it. -/
def Obligations.StepRunsTheDecodedInstruction : Prop :=
  ∀ (s : State) (i : Instr), s.halted = none → s.pc.toNat + 1 < 4096 →
    decode [s.mem.read s.pc.toNat, s.mem.read (s.pc.toNat + 1)] = .ok (i, []) → step s = exec i s

/-- The fetch gives `M[pc]` and `M[pc + 1]`, high byte first, when both are in memory; else the step writes a
fetch-bounds record, which has no word, and the block is halted (30_encoding.md section 1, 60_exceptions.md section 2;
that only the record is written is the spec's decision D22, the form of the two answers is log entry 1). -/
def Obligations.FetchReadsTwoBytesOrFaults : Prop :=
  ∀ s : State,
    (s.pc.toNat + 1 < 4096 → ∃ w : Word, s.fetch = some w ∧
      w.toNat = 256 * (s.mem.read s.pc.toNat).toNat + (s.mem.read (s.pc.toNat + 1)).toNat) ∧
    (s.halted = none → 4096 ≤ s.pc.toNat + 1 →
      step s = .next { s with halted := some (.fetchBounds s.pc) } ∧
      (Fault.fetchBounds s.pc).wordOf = none ∧
      step { s with halted := some (.fetchBounds s.pc) } = .fault (.fetchBounds s.pc))

/-- A fetched word that is no instruction makes a decode error holding the `pc` and the word, and the block is halted
(60_exceptions.md section 2; the spec's decision D22, and log entry 1 for the form of the two answers). -/
def Obligations.UnknownWordIsADecodeError : Prop :=
  ∀ (s : State) (w : Word) (e : Reject), s.halted = none → s.fetch = some w → decodeWord w = .error e →
    step s = .next { s with halted := some (.decodeError s.pc w) } ∧
    step { s with halted := some (.decodeError s.pc w) } = .fault (.decodeError s.pc w)

/-- The step port gives ok for a step without a fault and the record for a step that faults, with the state the step
leaves. A step request on a halted block gives its record again and changes nothing, and it is the only thing a step
answers as a fault (60_exceptions.md sections 1 and 5; the spec's decision D22, log entry 1). -/
def Obligations.HaltedBlockAnswersItsRecord : Prop :=
  ∀ s : State,
    (∀ t, step s = .next t → stepPort s = (t, t.halted)) ∧
    ∀ f : Fault, (s.halted = some f → stepPort s = (s, some f)) ∧ (step s = .fault f ↔ s.halted = some f)

/-- No step is ever refused: every instruction has its meaning. -/
def Obligations.NoStepIsRefused : Prop :=
  ∀ (s : State) (i : Instr) (r : Refusal), step s ≠ .refused r ∧ exec i s ≠ .refused r

/-- A step that raises a fault writes nothing but the record: memory, registers, stack, framebuffer, `pc` and the
port events are as before (60_exceptions.md section 1; the spec's decision D22; that such a step answers a next state
is log entry 1). -/
def Obligations.FaultingStepWritesOnlyTheRecord : Prop :=
  ∀ s t : State, step s = .next t → t.halted ≠ none → t = { s with halted := t.halted }

/-- The record a step leaves says what is true: its `pc`, its word, and its cause, the lowest failing address included
(Fault.trueOf). In particular no step records a sprite-size fault. Rests on the spec's decisions D22 to D25, D36, and
log entry 1. -/
def Obligations.FaultRecordIsTrue : Prop :=
  ∀ (s t : State) (f : Fault), step s = .next t → t.halted = some f →
    f.trueOf t ∧ ∀ e, f ≠ .programLoad e

/-- No instruction but CALL, RET, DRW, LD B, LD [I] and LD Vx,[I] changes the fault status (60_exceptions.md
section 1). -/
def Obligations.OtherInstructionsNeverFault : Prop :=
  ∀ (i : Instr) (s t : State), exec i s = .next t →
    (∀ nnn, i ≠ .call nnn) → (∀ ign, i ≠ .ret ign) → (∀ x y n, i ≠ .drw x y n) → (∀ x, i ≠ .ldB x) →
    (∀ x, i ≠ .storeRegs x) → (∀ x, i ≠ .loadRegs x) → t.halted = s.halted

/-- The new `pc` of every sequential, skip and wait instruction that raises no fault (30_encoding.md section 5; the
spec's decision D19 for the wait). -/
def Obligations.PcAdvancesByClass : Prop :=
  ∀ (i : Instr) (s t : State), exec i s = .next t → t.halted = none →
    (i.advanceClass = .sequential → t.pc = s.pc + 2#16) ∧
    (i.advanceClass = .skip → t.pc = s.pc + 2#16 ∨ t.pc = s.pc + 4#16) ∧
    (i.advanceClass = .wait → t.pc = s.pc ∨ t.pc = s.pc + 2#16)

/-! ## What instructions leave unchanged -/

/-- A general register changes only where the instruction may write it: as its destination, as a loaded register, or
as the flag (10_state.md section 3; the spec's decision D11 for DRW). -/
def Obligations.OnlyDestinationRegistersChange : Prop :=
  ∀ (i : Instr) (s t : State) (r : Reg), exec i s = .next t → i.mayWriteReg r = false → t.getV r = s.getV r

/-- Every byte of memory reads as before after any instruction but LD B and LD [I] (20_memory.md section 1). -/
def Obligations.OnlyStoresChangeMemory : Prop :=
  ∀ (i : Instr) (s t : State), exec i s = .next t → (∀ x, i ≠ .ldB x) → (∀ x, i ≠ .storeRegs x) →
    ∀ a : Nat, t.mem.read a = s.mem.read a

/-- DRW, LD B, LD [I] and LD Vx,[I] are the only instructions that touch memory once fetched: any other does the same
whatever memory holds, and leaves it as it is. So a skip does not look at the word it skips (20_memory.md section 1,
30_encoding.md section 5). -/
def Obligations.NoOtherInstructionTouchesMemory : Prop :=
  ∀ (i : Instr) (s t : State) (m : Memory), exec i s = .next t → (∀ x y n, i ≠ .drw x y n) → (∀ x, i ≠ .ldB x) →
    (∀ x, i ≠ .storeRegs x) → (∀ x, i ≠ .loadRegs x) →
    t.mem = s.mem ∧ exec i { s with mem := m } = .next { t with mem := m }

/-- `I` changes only under LD I, ADD I and LD F (10_state.md section 4). -/
def Obligations.OnlyAddressInstructionsChangeI : Prop :=
  ∀ (i : Instr) (s t : State), exec i s = .next t → (∀ nnn, i ≠ .ldI nnn) → (∀ x, i ≠ .addI x) → (∀ x, i ≠ .ldF x) →
    t.I = s.I

/-- Only CALL and RET reach the stack (10_state.md section 6). Any other instruction does the same whatever the stack
and its pointer hold, and leaves them as they are; RET leaves every entry. -/
def Obligations.OnlyCallAndRetReachTheStack : Prop :=
  ∀ (i : Instr) (s t : State) (stack : Vector Word 16) (sp : Fin 17), exec i s = .next t → (∀ nnn, i ≠ .call nnn) →
    ((∀ ign, i ≠ .ret ign) → t.stack = s.stack ∧ t.sp = s.sp ∧
      exec i { s with stack := stack, sp := sp } = .next { t with stack := stack, sp := sp }) ∧
    t.stack = s.stack

/-- The framebuffer changes only under CLS and DRW (43_display.md section 1). -/
def Obligations.OnlyDrawAndClearChangeTheScreen : Prop :=
  ∀ (i : Instr) (s t : State), exec i s = .next t → (∀ ign, i ≠ .cls ign) → (∀ x y n, i ≠ .drw x y n) → t.fb = s.fb

/-- A port is asked exactly once by RND, SKP, SKNP, LD Vx,K and LD Vx,DT and by nothing else; an event is emitted only
by LD DT and LD ST (60_exceptions.md section 5). The fields `draws` and `events` are the model's own (log entries 2
and 3). -/
def Obligations.OnlyPortInstructionsUsePorts : Prop :=
  ∀ (i : Instr) (s t : State), exec i s = .next t →
    (t.draws = s.draws + 1 ∧ t.events = s.events ∧
      ((∃ x kk, i = .rnd x kk) ∨ ∃ x, i = .skp x ∨ i = .sknp x ∨ i = .ldVxK x ∨ i = .ldVxDT x)) ∨
    (t.draws = s.draws ∧ (∃ e, t.events = s.events ++ [e]) ∧ ∃ x, i = .ldDTVx x ∨ i = .ldSTVx x) ∨
    (t.draws = s.draws ∧ t.events = s.events ∧
      (∀ x kk, i ≠ .rnd x kk) ∧ ∀ x, i ≠ .skp x ∧ i ≠ .sknp x ∧ i ≠ .ldVxK x ∧ i ≠ .ldVxDT x ∧ i ≠ .ldDTVx x ∧
        i ≠ .ldSTVx x)

/-- The ignored nibble of NOP, CLS, the register skips and the shifts changes nothing (30_encoding.md section 3; the
spec's decisions D7, D8, D10), nor does RET's on a stack that is not empty. -/
def Obligations.IgnoredNibblesDoNothing : Prop :=
  ∀ (a b : Nibble) (x y : Reg) (s : State),
    exec (.nop a) s = exec (.nop b) s ∧ exec (.cls a) s = exec (.cls b) s ∧
    exec (.seReg x y a) s = exec (.seReg x y b) s ∧ exec (.sneReg x y a) s = exec (.sneReg x y b) s ∧
    exec (.shr x a) s = exec (.shr x b) s ∧ exec (.shl x a) s = exec (.shl x b) s ∧
    (s.sp ≠ 0 → exec (.ret a) s = exec (.ret b) s)

/-! ## Control flow -/

/-- NOP, with any ignored nibble, only advances `pc` (40_control_flow.md section 2; the spec's decision D7 for the
nibble). -/
def Obligations.NopOnlyAdvances : Prop :=
  ∀ (ign : Nibble) (s : State), decodeWord ((0x0#4 ++ ign : BitVec 8) ++ 0x00#8) = .ok (.nop ign) ∧
    exec (.nop ign) s = .next { s with pc := s.pc + 2#16 }

/-- JP sets `pc` to its address and changes nothing else; to its own address it is a loop; to 0xFFF, the next step
faults (40_control_flow.md section 2; decision D22 and log entry 1 for the fault). -/
def Obligations.JumpReplacesPc : Prop :=
  ∀ (nnn : Addr12) (s : State), decodeWord (0x1#4 ++ nnn) = .ok (.jp nnn) ∧
    exec (.jp nnn) s = .next { s with pc := nnn.setWidth 16 } ∧
    (s.pc = nnn.setWidth 16 → exec (.jp nnn) s = .next s) ∧
    (nnn = 0xFFF#12 → s.halted = none →
      step { s with pc := nnn.setWidth 16 } = .next { s with pc := 0xFFF#16, halted := some (.fetchBounds 0xFFF#16) })

/-- CALL pushes its own address and jumps; with sixteen entries it only records an overflow with its `pc` and word, and
the block is halted (40_control_flow.md section 2; decision D22 and log entry 1 for the fault). -/
def Obligations.CallPushesItsOwnAddress : Prop :=
  ∀ (nnn : Addr12) (s : State), decodeWord (0x2#4 ++ nnn) = .ok (.call nnn) ∧
    (∀ h : s.sp.val < 16, exec (.call nnn) s = .next { s with
      stack := s.stack.set s.sp.val s.pc h, sp := ⟨s.sp.val + 1, Nat.succ_lt_succ h⟩, pc := nnn.setWidth 16 }) ∧
    (s.sp = 16 → exec (.call nnn) s = .next { s with halted := some (.stackOverflow s.pc (0x2#4 ++ nnn)) } ∧
      step { s with halted := some (.stackOverflow s.pc (0x2#4 ++ nnn)) } =
        .fault (.stackOverflow s.pc (0x2#4 ++ nnn)))

/-- RET on an empty stack only records an underflow, and the block is halted (40_control_flow.md section 2; decision
D22 and log entry 1). -/
def Obligations.ReturnOnEmptyStackFaults : Prop :=
  ∀ (ign : Nibble) (s : State), s.sp = 0 → ∃ t : State, exec (.ret ign) s = .next t ∧
    t = { s with halted := some (.stackUnderflow s.pc ((0x0#4 ++ ign : BitVec 8) ++ 0xEE#8)) } ∧
    step t = .fault (.stackUnderflow s.pc ((0x0#4 ++ ign : BitVec 8) ++ 0xEE#8))

/-- RET pops the top entry, leaves it in place, and resumes two bytes after it (40_control_flow.md section 2; the
offset 2 is the spec's decision D3, log entry 5). The sum is taken modulo 2^16, which is the model's choice (log entry
9): for a live return address of 0xFFFE or more, which State.Inv rules out, the spec gives no such value. -/
def Obligations.ReturnPopsAndResumes : Prop :=
  ∀ (ign : Nibble) (s : State), decodeWord ((0x0#4 ++ ign : BitVec 8) ++ 0xEE#8) = .ok (.ret ign) ∧
    ∀ (k : Nat) (hk : k < 16), s.sp.val = k + 1 →
      exec (.ret ign) s = .next { s with sp := ⟨k, Nat.lt_succ_of_lt hk⟩, pc := s.stack[k] + 2#16 }

/-- A CALL and then a RET come back to the instruction after the CALL, with the stack pointer restored and nothing else
changed but the stale entry, which holds the CALL's address (95_test_vectors.md W6; decision D3, log entry 5; `pc + 2`
modulo 2^16 is the model's choice, log entry 9). -/
def Obligations.CallThenReturnComesBack : Prop :=
  ∀ (nnn : Addr12) (ign : Nibble) (s : State) (h : s.sp.val < 16), ∃ t : State, exec (.call nnn) s = .next t ∧
    t.pc = nnn.setWidth 16 ∧ t.stack[s.sp.val] = s.pc ∧
    exec (.ret ign) t = .next { s with stack := s.stack.set s.sp.val s.pc h, pc := s.pc + 2#16 }

/-- The immediate skips (40_control_flow.md section 2; the patterns are log entry 7, `pc + 2` and `pc + 4` modulo 2^16 log
entry 9). -/
def Obligations.ImmediateSkipsCompare : Prop :=
  ∀ (x : Reg) (kk : Byte) (s : State),
    decodeWord ((0x3#4 ++ regBits x : BitVec 8) ++ kk) = .ok (.seImm x kk) ∧
    decodeWord ((0x4#4 ++ regBits x : BitVec 8) ++ kk) = .ok (.sneImm x kk) ∧
    exec (.seImm x kk) s = .next { s with pc := if s.getV x = kk then s.pc + 4#16 else s.pc + 2#16 } ∧
    exec (.sneImm x kk) s = .next { s with pc := if s.getV x ≠ kk then s.pc + 4#16 else s.pc + 2#16 }

/-- The register skips, whatever their ignored nibble (40_control_flow.md section 2; the spec's decision D8). -/
def Obligations.RegisterSkipsCompare : Prop :=
  ∀ (x y : Reg) (ign : Nibble) (s : State),
    decodeWord ((0x5#4 ++ regBits x : BitVec 8) ++ (regBits y ++ ign : BitVec 8)) = .ok (.seReg x y ign) ∧
    decodeWord ((0x9#4 ++ regBits x : BitVec 8) ++ (regBits y ++ ign : BitVec 8)) = .ok (.sneReg x y ign) ∧
    exec (.seReg x y ign) s = .next { s with pc := if s.getV x = s.getV y then s.pc + 4#16 else s.pc + 2#16 } ∧
    exec (.sneReg x y ign) s = .next { s with pc := if s.getV x ≠ s.getV y then s.pc + 4#16 else s.pc + 2#16 }

/-- JP V0: the exact sum, not reduced to 12 bits (40_control_flow.md section 2; the spec's decision D31). -/
def Obligations.JumpWithOffsetAddsExactly : Prop :=
  ∀ (nnn : Addr12) (s : State), decodeWord (0xB#4 ++ nnn) = .ok (.jpV0 nnn) ∧
    ∃ t : State, exec (.jpV0 nnn) s = .next t ∧ t.pc.toNat = (s.getV 0).toNat + nnn.toNat ∧ t = { s with pc := t.pc }

/-! ## Arithmetic and logic -/

/-- The plain loads, into any register, `V[15]` included (41_alu.md section 2; the pattern 8xy0 is log entry 7, `pc + 2`
modulo 2^16 log entry 9). -/
def Obligations.LoadsCopy : Prop :=
  ∀ (x y : Reg) (kk : Byte) (s : State),
    decodeWord ((0x6#4 ++ regBits x : BitVec 8) ++ kk) = .ok (.ldImm x kk) ∧
    decodeWord ((0x8#4 ++ regBits x : BitVec 8) ++ (regBits y ++ 0x0#4 : BitVec 8)) = .ok (.ldReg x y) ∧
    exec (.ldImm x kk) s = .next { s with V := s.V.set x.val kk x.isLt, pc := s.pc + 2#16 } ∧
    exec (.ldReg x y) s = .next { s with V := s.V.set x.val (s.getV y) x.isLt, pc := s.pc + 2#16 }

/-- The immediate addition wraps and writes no flag (41_alu.md section 2; the pattern is log entry 7, `pc + 2` modulo 2^16
log entry 9). -/
def Obligations.AddImmediateWraps : Prop :=
  ∀ (x : Reg) (kk : Byte) (s : State),
    decodeWord ((0x7#4 ++ regBits x : BitVec 8) ++ kk) = .ok (.addImm x kk) ∧
    ∃ t : State, exec (.addImm x kk) s = .next t ∧ (t.getV x).toNat = ((s.getV x).toNat + kk.toNat) % 256 ∧
      (∀ y, y ≠ x → t.getV y = s.getV y) ∧ t = { s with V := t.V, pc := s.pc + 2#16 }

/-- The bitwise operations, without a flag (41_alu.md section 3; the patterns are log entry 7, `pc + 2` modulo 2^16 log
entry 9). -/
def Obligations.BitwiseOperations : Prop :=
  ∀ (x y : Reg) (s : State),
    decodeWord ((0x8#4 ++ regBits x : BitVec 8) ++ (regBits y ++ 0x1#4 : BitVec 8)) = .ok (.orReg x y) ∧
    decodeWord ((0x8#4 ++ regBits x : BitVec 8) ++ (regBits y ++ 0x2#4 : BitVec 8)) = .ok (.andReg x y) ∧
    decodeWord ((0x8#4 ++ regBits x : BitVec 8) ++ (regBits y ++ 0x3#4 : BitVec 8)) = .ok (.xorReg x y) ∧
    exec (.orReg x y) s = .next { s with V := s.V.set x.val (s.getV x ||| s.getV y) x.isLt, pc := s.pc + 2#16 } ∧
    exec (.andReg x y) s = .next { s with V := s.V.set x.val (s.getV x &&& s.getV y) x.isLt, pc := s.pc + 2#16 } ∧
    exec (.xorReg x y) s = .next { s with V := s.V.set x.val (s.getV x ^^^ s.getV y) x.isLt, pc := s.pc + 2#16 }

/-- ADD Vx, Vy: `V[x]` takes the sum modulo 256 and `V[15]` the carry, which is what remains when `x` is 15
(41_alu.md section 4; the write order is the spec's decision D2). -/
def Obligations.AddSetsCarry : Prop :=
  ∀ (x y : Reg) (s : State),
    decodeWord ((0x8#4 ++ regBits x : BitVec 8) ++ (regBits y ++ 0x4#4 : BitVec 8)) = .ok (.addReg x y) ∧
    ∃ t : State, exec (.addReg x y) s = .next t ∧
      (x ≠ 15 → (t.getV x).toNat = ((s.getV x).toNat + (s.getV y).toNat) % 256) ∧
      t.getV 15 = (if 255 < (s.getV x).toNat + (s.getV y).toNat then 0x01#8 else 0x00#8) ∧
      (∀ r, r ≠ x → r ≠ 15 → t.getV r = s.getV r) ∧ t = { s with V := t.V, pc := s.pc + 2#16 }

/-- SUB and SUBN: the difference modulo 256, and the flag by strict comparison, 0 at equality (41_alu.md section 4;
the selectors are the spec's decision D6, the write order D2). -/
def Obligations.SubtractionsSetNoBorrow : Prop :=
  ∀ (x y : Reg) (s : State),
    decodeWord ((0x8#4 ++ regBits x : BitVec 8) ++ (regBits y ++ 0x5#4 : BitVec 8)) = .ok (.sub x y) ∧
    decodeWord ((0x8#4 ++ regBits x : BitVec 8) ++ (regBits y ++ 0x7#4 : BitVec 8)) = .ok (.subn x y) ∧
    (∃ t : State, exec (.sub x y) s = .next t ∧
      (x ≠ 15 → (t.getV x).toNat = (256 + (s.getV x).toNat - (s.getV y).toNat) % 256) ∧
      t.getV 15 = (if (s.getV x).toNat > (s.getV y).toNat then 0x01#8 else 0x00#8) ∧
      (∀ r, r ≠ x → r ≠ 15 → t.getV r = s.getV r) ∧ t = { s with V := t.V, pc := s.pc + 2#16 }) ∧
    ∃ t : State, exec (.subn x y) s = .next t ∧
      (x ≠ 15 → (t.getV x).toNat = (256 + (s.getV y).toNat - (s.getV x).toNat) % 256) ∧
      t.getV 15 = (if (s.getV y).toNat > (s.getV x).toNat then 0x01#8 else 0x00#8) ∧
      (∀ r, r ≠ x → r ≠ 15 → t.getV r = s.getV r) ∧ t = { s with V := t.V, pc := s.pc + 2#16 }

/-- SHR and SHL: in place, the flag is the bit shifted out of the old value (41_alu.md section 4; the operand is the
spec's decision D10, the write order D2). -/
def Obligations.ShiftsKeepTheBitShiftedOut : Prop :=
  ∀ (x : Reg) (ign : Nibble) (s : State),
    decodeWord ((0x8#4 ++ regBits x : BitVec 8) ++ (ign ++ 0x6#4 : BitVec 8)) = .ok (.shr x ign) ∧
    decodeWord ((0x8#4 ++ regBits x : BitVec 8) ++ (ign ++ 0xE#4 : BitVec 8)) = .ok (.shl x ign) ∧
    (∃ t : State, exec (.shr x ign) s = .next t ∧
      (x ≠ 15 → (t.getV x).toNat = (s.getV x).toNat / 2) ∧
      t.getV 15 = (if (s.getV x).toNat % 2 = 1 then 0x01#8 else 0x00#8) ∧
      (∀ r, r ≠ x → r ≠ 15 → t.getV r = s.getV r) ∧ t = { s with V := t.V, pc := s.pc + 2#16 }) ∧
    ∃ t : State, exec (.shl x ign) s = .next t ∧
      (x ≠ 15 → (t.getV x).toNat = 2 * (s.getV x).toNat % 256) ∧
      t.getV 15 = (if 128 ≤ (s.getV x).toNat then 0x01#8 else 0x00#8) ∧
      (∀ r, r ≠ x → r ≠ 15 → t.getV r = s.getV r) ∧ t = { s with V := t.V, pc := s.pc + 2#16 }

/-- RND: the port's answer, whatever it is, masked; one answer is taken (41_alu.md section 5; decision D32, log
entry 2). -/
def Obligations.RandomByteIsMasked : Prop :=
  ∀ (x : Reg) (kk : Byte) (s : State),
    decodeWord ((0xC#4 ++ regBits x : BitVec 8) ++ kk) = .ok (.rnd x kk) ∧
    exec (.rnd x kk) s = .next { s with
      V := s.V.set x.val (Config.randByte s.draws &&& kk) x.isLt, pc := s.pc + 2#16, draws := s.draws + 1 }

/-! ## Address register and memory -/

/-- LD I takes the zero-extended address (42_index_memory.md; the pattern is log entry 7, `pc + 2` modulo 2^16 log
entry 9). -/
def Obligations.LoadAddressRegister : Prop :=
  ∀ (nnn : Addr12) (s : State), decodeWord (0xA#4 ++ nnn) = .ok (.ldI nnn) ∧
    exec (.ldI nnn) s = .next { s with I := nnn.setWidth 16, pc := s.pc + 2#16 }

/-- ADD I and LD F: `I` takes the sum modulo 2^16, or five times the unmasked digit (42_index_memory.md; the spec's
decisions D16 and D17, log entry 5); no flag, no fault. -/
def Obligations.AddressRegisterArithmetic : Prop :=
  ∀ (x : Reg) (s : State),
    decodeWord ((0xF#4 ++ regBits x : BitVec 8) ++ 0x1E#8) = .ok (.addI x) ∧
    decodeWord ((0xF#4 ++ regBits x : BitVec 8) ++ 0x29#8) = .ok (.ldF x) ∧
    (∃ t : State, exec (.addI x) s = .next t ∧ t.I.toNat = (s.I.toNat + (s.getV x).toNat) % 65536 ∧
      t = { s with I := t.I, pc := s.pc + 2#16 }) ∧
    ∃ t : State, exec (.ldF x) s = .next t ∧ t.I.toNat = 5 * (s.getV x).toNat ∧
      t = { s with I := t.I, pc := s.pc + 2#16 }

/-- LD B stores the three digits at `I`, `I + 1`, `I + 2` and changes no other byte and nothing else but `pc`
(42_index_memory.md; the spec's decisions D14, D18). -/
def Obligations.DecimalDigitsAreStored : Prop :=
  ∀ (x : Reg) (s : State), decodeWord ((0xF#4 ++ regBits x : BitVec 8) ++ 0x33#8) = .ok (.ldB x) ∧
    (s.I.toNat + 2 < 4096 → ∃ t : State, exec (.ldB x) s = .next t ∧
      (t.mem.read s.I.toNat).toNat = (s.getV x).toNat / 100 ∧
      (t.mem.read (s.I.toNat + 1)).toNat = (s.getV x).toNat / 10 % 10 ∧
      (t.mem.read (s.I.toNat + 2)).toNat = (s.getV x).toNat % 10 ∧
      (∀ a, a < s.I.toNat ∨ s.I.toNat + 3 ≤ a → t.mem.read a = s.mem.read a) ∧
      t = { s with mem := t.mem, pc := s.pc + 2#16 })

/-- LD [I], Vx stores `V[0]` to `V[x]` inclusive from `I` on, and changes no other byte and nothing else but `pc`
(42_index_memory.md; the spec's decisions D14, D18). -/
def Obligations.RegistersAreStored : Prop :=
  ∀ (x : Reg) (s : State), decodeWord ((0xF#4 ++ regBits x : BitVec 8) ++ 0x55#8) = .ok (.storeRegs x) ∧
    (s.I.toNat + x.val < 4096 → ∃ t : State, exec (.storeRegs x) s = .next t ∧
      (∀ k : Reg, k ≤ x → t.mem.read (s.I.toNat + k.val) = s.getV k) ∧
      (∀ a, a < s.I.toNat ∨ s.I.toNat + x.val + 1 ≤ a → t.mem.read a = s.mem.read a) ∧
      t = { s with mem := t.mem, pc := s.pc + 2#16 })

/-- LD Vx, [I] loads `V[0]` to `V[x]` inclusive from `I` on and changes no other register (42_index_memory.md; the
spec's decisions D14, D18). -/
def Obligations.RegistersAreLoaded : Prop :=
  ∀ (x : Reg) (s : State), decodeWord ((0xF#4 ++ regBits x : BitVec 8) ++ 0x65#8) = .ok (.loadRegs x) ∧
    (s.I.toNat + x.val < 4096 → ∃ t : State, exec (.loadRegs x) s = .next t ∧
      (∀ k : Reg, k ≤ x → t.getV k = s.mem.read (s.I.toNat + k.val)) ∧
      (∀ k : Reg, x < k → t.getV k = s.getV k) ∧
      t = { s with V := t.V, pc := s.pc + 2#16 })

/-- An access of LD B, LD [I] or LD Vx,[I] that leaves memory records the lowest failing address and writes nothing:
`I` itself when it is outside memory, else 4096 (20_memory.md section 1; the spec's decisions D14, D22, D23; log
entry 1). -/
def Obligations.DataAccessOutsideMemoryFaults : Prop :=
  ∀ (x : Reg) (s : State),
    (4096 ≤ s.I.toNat + 2 → exec (.ldB x) s = .next { s with
      halted := some (.dataBounds s.pc ((0xF#4 ++ regBits x : BitVec 8) ++ 0x33#8) (max s.I.toNat 4096)) }) ∧
    (4096 ≤ s.I.toNat + x.val →
      exec (.storeRegs x) s = .next { s with
        halted := some (.dataBounds s.pc ((0xF#4 ++ regBits x : BitVec 8) ++ 0x55#8) (max s.I.toNat 4096)) } ∧
      exec (.loadRegs x) s = .next { s with
        halted := some (.dataBounds s.pc ((0xF#4 ++ regBits x : BitVec 8) ++ 0x65#8) (max s.I.toNat 4096)) })

/-- What LD [I] or LD B stores over two addresses is the word fetched there at a later step (20_memory.md section 7:
fetch sees every earlier write). The bytes that each stores, and where, are 42_index_memory.md's, which presumes the
meanings of Fx33 and Fx55 from general knowledge (log entry 7), with the spec's decisions D14 and D18. -/
def Obligations.StoredBytesAreFetched : Prop :=
  ∀ (x : Reg) (s t : State),
    (exec (.storeRegs x) s = .next t → s.I.toNat + x.val < 4096 →
      ∀ (k : Reg) (hk : k.val + 1 ≤ x.val) (p : Word), p.toNat = s.I.toNat + k.val →
        ({ t with pc := p } : State).fetch =
          some (wordOfBytes (s.getV k) (s.getV ⟨k.val + 1, Nat.lt_of_le_of_lt hk x.isLt⟩))) ∧
    (exec (.ldB x) s = .next t → s.I.toNat + 2 < 4096 → ∀ p : Word,
      (p.toNat = s.I.toNat → ∃ w : Word, ({ t with pc := p } : State).fetch = some w ∧
        w.toNat = 256 * ((s.getV x).toNat / 100) + (s.getV x).toNat / 10 % 10) ∧
      (p.toNat = s.I.toNat + 1 → ∃ w : Word, ({ t with pc := p } : State).fetch = some w ∧
        w.toNat = 256 * ((s.getV x).toNat / 10 % 10) + (s.getV x).toNat % 10))

/-! ## Display -/

/-- R182 and R185: a toggle flips exactly the pixel at the wrapped coordinates, reducing a coordinate modulo 256 first
makes no difference, a second toggle restores the bitmap, and after a clear every pixel reads off. -/
def Obligations.TogglesFlipOnePixel : Prop :=
  ∀ (fb : Framebuffer) (x y : Nat),
    (∀ c r, c < 64 → r < 32 → (fb.togglePixel x y).getPixel c r =
      if c = x % 64 ∧ r = y % 32 then !fb.getPixel c r else fb.getPixel c r) ∧
    fb.togglePixel (x % 256) (y % 256) = fb.togglePixel x y ∧
    (fb.togglePixel x y).togglePixel x y = fb ∧
    Framebuffer.clear.getPixel x y = false

/-- CLS, with any ignored nibble, turns every pixel off and changes nothing else but `pc` (43_display.md section 2; the
spec's decision D7 for the nibble, log entry 8, and log entry 9 for `pc + 2` modulo 2^16). -/
def Obligations.ClearScreenTurnsEveryPixelOff : Prop :=
  ∀ (ign : Nibble) (s : State), decodeWord ((0x0#4 ++ ign : BitVec 8) ++ 0xE0#8) = .ok (.cls ign) ∧
    ∃ t : State, exec (.cls ign) s = .next t ∧ (∀ x y, t.fb.getPixel x y = false) ∧
      t = { s with fb := t.fb, pc := s.pc + 2#16 }

/-- R183 and R184: `render` is 32 rows from the top, each of 64 pixels from the left, and `get_pixel` wraps. -/
def Obligations.RenderListsThePixels : Prop :=
  ∀ fb : Framebuffer, fb.render.length = 32 ∧
    (∀ (r : Nat) (row : List Bool), fb.render[r]? = some row → row.length = 64 ∧
      ∀ c, c < 64 → row[c]? = some (fb.getPixel c r)) ∧
    ∀ x y, fb.getPixel x y = fb.getPixel (x % 64) (y % 32)

/-- The pixels a sprite covers: bit `b` of row `k`, most significant first, at column `V[x] + b` and row `V[y] + k`,
both wrapped (43_display.md section 2). -/
def spriteCoversPixel (s : State) (x y : Reg) (n c r : Nat) : Prop :=
  ∃ k b, k < n ∧ b < 8 ∧ (s.mem.read (s.I.toNat + k)).getLsbD (7 - b) = true ∧
    ((s.getV x).toNat + b) % 64 = c % 64 ∧ ((s.getV y).toNat + k) % 32 = r % 32

/-- DRW flips exactly the pixels the sprite covers, sets `V[15]` to whether one of them was on, and changes nothing
else but `pc` (43_display.md section 2; the flag is the spec's decision D11, wrapping D13, no row D12). -/
def Obligations.DrawFlipsTheSpritesPixels : Prop :=
  ∀ (x y : Reg) (n : Nat) (s : State), n ≤ 15 →
    decodeWord ((0xD#4 ++ regBits x : BitVec 8) ++ (regBits y ++ BitVec.ofNat 4 n : BitVec 8)) = .ok (.drw x y n) ∧
    (n = 0 ∨ s.I.toNat + n ≤ 4096 → ∃ t : State, exec (.drw x y n) s = .next t ∧
      (∀ c r, t.fb.getPixel c r = true ↔ ¬(s.fb.getPixel c r = true ↔ spriteCoversPixel s x y n c r)) ∧
      (t.getV 15 = 0x01#8 ∨ t.getV 15 = 0x00#8) ∧
      (t.getV 15 = 0x01#8 ↔ ∃ c r, s.fb.getPixel c r = true ∧ spriteCoversPixel s x y n c r) ∧
      (∀ r, r ≠ 15 → t.getV r = s.getV r) ∧
      t = { s with V := t.V, fb := t.fb, pc := s.pc + 2#16 })

/-- DRW's two faults: a height above 15 before anything else, and then a sprite byte outside memory, at the lowest
failing address; both write only the record (43_display.md section 2; the spec's decisions D14, D22, D36, log entry 1,
and log entry 10 for the word of the first). -/
def Obligations.DrawFaultsBeforeDrawing : Prop :=
  ∀ (x y : Reg) (n : Nat) (s : State),
    (15 < n → ∃ w, exec (.drw x y n) s = .next { s with halted := some (.spriteSize s.pc w) }) ∧
    (0 < n → n ≤ 15 → 4096 < s.I.toNat + n → exec (.drw x y n) s = .next { s with
      halted := some (.dataBounds s.pc
        ((0xD#4 ++ regBits x : BitVec 8) ++ (regBits y ++ BitVec.ofNat 4 n : BitVec 8)) (max s.I.toNat 4096)) })

/-! ## Ports -/

/-- SKP and SKNP ask the key-down port about the whole byte `V[x]` once and skip on its answer
(44_peripheral_ports.md; the spec's decisions D9, D21, log entry 2). -/
def Obligations.KeySkipsAskThePort : Prop :=
  ∀ (x : Reg) (s : State),
    decodeWord ((0xE#4 ++ regBits x : BitVec 8) ++ 0x9E#8) = .ok (.skp x) ∧
    decodeWord ((0xE#4 ++ regBits x : BitVec 8) ++ 0xA1#8) = .ok (.sknp x) ∧
    exec (.skp x) s = .next { s with
      draws := s.draws + 1,
      pc := if Config.keyDown s.draws (s.getV x) = true then s.pc + 4#16 else s.pc + 2#16 } ∧
    exec (.sknp x) s = .next { s with
      draws := s.draws + 1,
      pc := if Config.keyDown s.draws (s.getV x) = false then s.pc + 4#16 else s.pc + 2#16 }

/-- LD Vx, K asks the key-wait port once: with no key nothing changes (but the model's own count of answers), with a
key `V[x]` takes it and `pc` advances (44_peripheral_ports.md; the spec's decisions D19, D34, log entry 2). -/
def Obligations.KeyWaitRepeatsUntilAKey : Prop :=
  ∀ (x : Reg) (s : State), decodeWord ((0xF#4 ++ regBits x : BitVec 8) ++ 0x0A#8) = .ok (.ldVxK x) ∧
    exec (.ldVxK x) s = .next (match Config.keyWait s.draws with
      | none => { s with draws := s.draws + 1 }
      | some k => { s with
          V := s.V.set x.val (BitVec.ofNat 8 k.val) x.isLt, pc := s.pc + 2#16, draws := s.draws + 1 })

/-- LD Vx, DT takes the delay-timer port's answer; LD DT and LD ST emit one event with `V[x]` and change nothing else
but `pc` (44_peripheral_ports.md; the spec's decision D20, log entries 2 and 3). -/
def Obligations.TimerInstructionsUseTheirPorts : Prop :=
  ∀ (x : Reg) (s : State),
    decodeWord ((0xF#4 ++ regBits x : BitVec 8) ++ 0x07#8) = .ok (.ldVxDT x) ∧
    decodeWord ((0xF#4 ++ regBits x : BitVec 8) ++ 0x15#8) = .ok (.ldDTVx x) ∧
    decodeWord ((0xF#4 ++ regBits x : BitVec 8) ++ 0x18#8) = .ok (.ldSTVx x) ∧
    exec (.ldVxDT x) s = .next { s with
      V := s.V.set x.val (Config.dtRead s.draws) x.isLt, pc := s.pc + 2#16, draws := s.draws + 1 } ∧
    exec (.ldDTVx x) s = .next { s with pc := s.pc + 2#16, events := s.events ++ [.dtWrite (s.getV x)] } ∧
    exec (.ldSTVx x) s = .next { s with pc := s.pc + 2#16, events := s.events ++ [.stWrite (s.getV x)] }

/-! ## Memory, loader, reset, invariant -/

/-- Two memories in canonical form that read the same at every address are the same data. The canonical form is the
model's own (Memory.wf). -/
def Obligations.CanonicalMemoriesAreEqual : Prop :=
  ∀ m m' : Memory, m.wf = true → m'.wf = true → (∀ a, m.read a = m'.read a) → m = m'

/-- The loader port: a write inside memory changes that byte alone; one outside, and an image longer than 0xDFF bytes,
record a program-load fault and write nothing else; an image that fits stands from 0x200 on (60_exceptions.md section 5;
the spec's decisions D29, D30; log entry 5 for 0xDFF). Two things are the model's choice: that a loader operation does
this in every block that is not halted, also after a step, where the spec gives it no meaning (D33, log entry 11), and
that a loader fault writes the record alone (log entries 1 and 11). -/
def Obligations.LoaderPlacesTheProgram : Prop :=
  ∀ s : State, s.halted = none →
    (∀ (a : Nat) (v : Byte), a < 4096 → ∃ t : State, s.loaderWrite a v = t ∧ t.mem.read a = v ∧
      (∀ b, b ≠ a → t.mem.read b = s.mem.read b) ∧ t = { s with mem := t.mem }) ∧
    (∀ (a : Nat) (v : Byte), 4096 ≤ a →
      s.loaderWrite a v = { s with halted := some (.programLoad (.addressOutOfRange a)) }) ∧
    (∀ image : List Byte, image.length ≤ 0xDFF → ∃ t : State, s.loadImage image = t ∧
      (∀ k v, image[k]? = some v → t.mem.read (0x200 + k) = v) ∧
      (∀ b, b < 0x200 ∨ 0x200 + image.length ≤ b → t.mem.read b = s.mem.read b) ∧ t = { s with mem := t.mem }) ∧
    ∀ image : List Byte, 0xDFF < image.length →
      s.loadImage image = { s with halted := some (.programLoad (.imageTooLong image.length)) }

/-- The state after reset (10_state.md section 11): registers, `I`, stack and screen zero, `pc` at 0x200 (the spec's
decision D4, log entry 5), memory zero outside the font, and the glyph of each digit, five bytes, at five times the
digit (the font bytes are the spec's decision D27, log entry 6). -/
def Obligations.ResetState : Prop :=
  (∀ x, State.reset.getV x = 0x00#8) ∧ State.reset.I = 0x0000#16 ∧ State.reset.pc = 0x200#16 ∧
  State.reset.sp = 0 ∧ (∀ (k : Nat) (h : k < 16), State.reset.stack[k] = 0x0000#16) ∧
  (∀ x y, State.reset.fb.getPixel x y = false) ∧ State.reset.halted = none ∧
  (∀ a, 0x050 ≤ a → a < 4096 → State.reset.mem.read a = 0x00#8) ∧
  State.reset.mem.readBytes 0x000 80 =
    [0xF0, 0x90, 0x90, 0x90, 0xF0] ++ [0x20, 0x60, 0x20, 0x20, 0x70] ++ -- 0, 1
    [0xF0, 0x10, 0xF0, 0x80, 0xF0] ++ [0xF0, 0x10, 0xF0, 0x10, 0xF0] ++ -- 2, 3
    [0x90, 0x90, 0xF0, 0x10, 0x10] ++ [0xF0, 0x80, 0xF0, 0x10, 0xF0] ++ -- 4, 5
    [0xF0, 0x80, 0xF0, 0x90, 0xF0] ++ [0xF0, 0x10, 0x20, 0x40, 0x40] ++ -- 6, 7
    [0xF0, 0x90, 0xF0, 0x90, 0xF0] ++ [0xF0, 0x90, 0xF0, 0x10, 0xF0] ++ -- 8, 9
    [0xF0, 0x90, 0xF0, 0x90, 0x90] ++ [0xE0, 0x90, 0xE0, 0x90, 0xE0] ++ -- A, B
    [0xF0, 0x80, 0x80, 0x80, 0xF0] ++ [0xE0, 0x90, 0x90, 0x90, 0xE0] ++ -- C, D
    [0xF0, 0x80, 0xF0, 0x80, 0xF0] ++ [0xF0, 0x80, 0xF0, 0x80, 0x80] -- E, F

/-- The invariant (State.Inv: memory in canonical form, `pc` at most 0x10FE, live return addresses at most 0xFFE) is
kept by every step that answers a next state, whatever it executes. -/
def Obligations.StepKeepsTheInvariant : Prop :=
  ∀ s t : State, s.Inv → step s = .next t → t.Inv

/-- The invariant holds after reset. -/
def Obligations.ResetMeetsTheInvariant : Prop := State.reset.Inv

/-- The invariant holds in every state that boot and steps reach, loader writes included. -/
def Obligations.ReachableStatesMeetTheInvariant : Prop := ∀ s : State, Reachable s → s.Inv

/-! ## Fault records -/

/-- The kind, the number and the parts of each record (60_exceptions.md section 1, 10_state.md section 8): the `pc` and
the word but for a fetch-bounds record, which has no word; an address for a data-bounds record and for a loader write
out of range. The numbers and the parts are the spec's decisions D24 and D25. -/
def Obligations.RecordPartsOfEachKind : Prop :=
  ∀ (pc w : Word) (a : Nat),
    let parts (f : Fault) := (f.kind, f.code, f.pcOf, f.wordOf, f.addrOf)
    parts (.decodeError pc w) = (.decodeError, 1, some pc, some w, none) ∧
    parts (.stackOverflow pc w) = (.stackOverflow, 2, some pc, some w, none) ∧
    parts (.stackUnderflow pc w) = (.stackUnderflow, 3, some pc, some w, none) ∧
    parts (.fetchBounds pc) = (.fetchBounds, 4, some pc, none, none) ∧
    parts (.spriteSize pc w) = (.spriteSize, 5, some pc, some w, none) ∧
    parts (.dataBounds pc w a) = (.dataBounds, 6, some pc, some w, some a) ∧
    parts (.programLoad (.imageTooLong a)) = (.programLoad, 7, none, none, none) ∧
    parts (.programLoad (.addressOutOfRange a)) = (.programLoad, 7, none, none, some a)
end

