-- ==== Sys2Proof/Laws/Decode.lean ====
section
/-! SUPPORT. The fields of the words the encoder builds, and words put together again from their fields. -/

namespace Sys2Proof

@[simp] theorem regOf_regBits (r : Reg) : regOf (regBits r) = r := by
  simp only [regOf, regBits, BitVec.toNat_ofNat]
  exact Fin.ext (Nat.mod_eq_of_lt r.isLt)

@[simp] theorem regBits_regOf (b : Nibble) : regBits (regOf b) = b := by simp [regOf, regBits]

@[simp] theorem toNat_regBits (r : Reg) : (regBits r).toNat = r.val := by
  rw [regBits, BitVec.toNat_ofNat]
  exact Nat.mod_eq_of_lt r.isLt

/-! ## Slices of a concatenation -/

theorem slice_append_high {a b : Nat} (x : BitVec a) (y : BitVec b) (k l : Nat) :
    (x ++ y).extractLsb' (b + k) l = x.extractLsb' k l := by
  apply BitVec.eq_of_getLsbD_eq
  intro i hi
  simp only [BitVec.getLsbD_extractLsb', BitVec.getLsbD_append]
  rw [if_neg (by omega), show b + k + i - b = k + i by omega]

theorem slice_append_low {a b : Nat} (x : BitVec a) (y : BitVec b) {k l : Nat} (h : k + l ≤ b) :
    (x ++ y).extractLsb' k l = y.extractLsb' k l := by
  apply BitVec.eq_of_getLsbD_eq
  intro i hi
  simp only [BitVec.getLsbD_extractLsb', BitVec.getLsbD_append]
  rw [if_pos (by omega)]

theorem slice_whole {a : Nat} (x : BitVec a) : x.extractLsb' 0 a = x := by
  apply BitVec.eq_of_getLsbD_eq
  intro i hi
  simp [hi]

theorem high_append {a b : Nat} (x : BitVec a) (y : BitVec b) : (x ++ y).extractLsb' b a = x :=
  (slice_append_high x y 0 a).trans (slice_whole x)

theorem low_append {a b : Nat} (x : BitVec a) (y : BitVec b) : (x ++ y).extractLsb' 0 b = y :=
  (slice_append_low x y (by omega)).trans (slice_whole y)

theorem append_slices {a b : Nat} (w : BitVec (a + b)) : w.extractLsb' b a ++ w.extractLsb' 0 b = w := by
  apply BitVec.eq_of_getLsbD_eq
  intro i hi
  rw [BitVec.getLsbD_append]
  split <;> simp only [BitVec.getLsbD_extractLsb']
  · simp [*]
  · rw [show b + (i - b) = i by omega]
    simp [show i - b < a by omega]

theorem slice_slice {a k l k' l' : Nat} (w : BitVec a) (h : k' + l' ≤ l) :
    (w.extractLsb' k l).extractLsb' k' l' = w.extractLsb' (k + k') l' := by
  apply BitVec.eq_of_getLsbD_eq
  intro i hi
  simp only [BitVec.getLsbD_extractLsb', hi, show k' + i < l by omega, decide_true, Bool.true_and, Nat.add_assoc]

/-! ## Fields of each format -/

variable (op x y n : Nibble) (kk : Byte) (nnn : Addr12)

@[simp] theorem fieldOp_wordNNN : fieldOp (wordNNN op nnn) = op := high_append op nnn

@[simp] theorem fieldNNN_wordNNN : fieldNNN (wordNNN op nnn) = nnn := low_append op nnn

@[simp] theorem fieldOp_wordXKK : fieldOp (wordXKK op x kk) = op :=
  (slice_append_high (op ++ x) kk 4 4).trans (high_append op x)

@[simp] theorem fieldX_wordXKK : fieldX (wordXKK op x kk) = x :=
  (slice_append_high (op ++ x) kk 0 4).trans (low_append op x)

@[simp] theorem fieldKK_wordXKK : fieldKK (wordXKK op x kk) = kk := low_append (op ++ x) kk

@[simp] theorem fieldOp_wordXYN : fieldOp (wordXYN op x y n) = op := fieldOp_wordXKK op x (y ++ n)

@[simp] theorem fieldX_wordXYN : fieldX (wordXYN op x y n) = x := fieldX_wordXKK op x (y ++ n)

@[simp] theorem fieldY_wordXYN : fieldY (wordXYN op x y n) = y :=
  (slice_append_low (op ++ x) (y ++ n) (by decide : 4 + 4 ≤ 4 + 4)).trans (high_append y n)

@[simp] theorem fieldN_wordXYN : fieldN (wordXYN op x y n) = n :=
  (slice_append_low (op ++ x) (y ++ n) (by decide : 0 + 4 ≤ 4 + 4)).trans (low_append y n)

/-- The sixteen groups. -/
theorem op_cases (o : Nibble) : o = 0x0#4 ∨ o = 0x1#4 ∨ o = 0x2#4 ∨ o = 0x3#4 ∨ o = 0x4#4 ∨ o = 0x5#4 ∨ o = 0x6#4 ∨
    o = 0x7#4 ∨ o = 0x8#4 ∨ o = 0x9#4 ∨ o = 0xA#4 ∨ o = 0xB#4 ∨ o = 0xC#4 ∨ o = 0xD#4 ∨ o = 0xE#4 ∨ o = 0xF#4 := by
  revert o
  decide

/-! ## A word is its fields put together -/

theorem wordNNN_fields (w : Word) : wordNNN (fieldOp w) (fieldNNN w) = w := append_slices (a := 4) (b := 12) w

theorem wordOfBytes_high_low (w : Word) : wordOfBytes (highByte w) (lowByte w) = w := append_slices (a := 8) (b := 8) w

theorem op_append_x (w : Word) : (fieldOp w ++ fieldX w : BitVec 8) = highByte w := by
  have h := append_slices (a := 4) (b := 4) (highByte w)
  unfold highByte at h
  rw [slice_slice w (by decide), slice_slice w (by decide)] at h
  exact h

theorem y_append_n (w : Word) : (fieldY w ++ fieldN w : BitVec 8) = fieldKK w := by
  have h := append_slices (a := 4) (b := 4) (lowByte w)
  unfold lowByte at h
  rw [slice_slice w (by decide), slice_slice w (by decide)] at h
  exact h

theorem wordXKK_fields (w : Word) : wordXKK (fieldOp w) (fieldX w) (fieldKK w) = w := by
  unfold wordXKK
  rw [op_append_x]
  exact wordOfBytes_high_low w

theorem wordXYN_fields (w : Word) : wordXYN (fieldOp w) (fieldX w) (fieldY w) (fieldN w) = w := by
  unfold wordXYN
  rw [op_append_x, y_append_n]
  exact wordOfBytes_high_low w

@[simp] theorem highByte_wordOfBytes (hi lo : Byte) : highByte (wordOfBytes hi lo) = hi := high_append hi lo

@[simp] theorem lowByte_wordOfBytes (hi lo : Byte) : lowByte (wordOfBytes hi lo) = lo := low_append hi lo

end Sys2Proof
end

