-- ==== Sys2Proof/Laws/Display.lean ====
section
/-! SUPPORT. The Display's operations pixel by pixel, and what drawing a sprite does. -/

namespace Sys2Proof.Machine.Framebuffer

/-- Two coordinate pairs that wrap to one pixel (43_display.md R182). -/
abbrev samePixel (x y c r : Nat) : Prop := x % 64 = c % 64 ∧ y % 32 = r % 32

/-- Everything a toggle does. -/
theorem getPixel_togglePixel (fb : Framebuffer) (x y c r : Nat) :
    (fb.togglePixel x y).getPixel c r = (fb.getPixel c r ^^ decide (samePixel x y c r)) := by
  have hx : x % 64 < 64 := Nat.mod_lt _ (by decide)
  have hc : c % 64 < 64 := Nat.mod_lt _ (by decide)
  simp only [togglePixel, getPixel, Vector.getElem_set, samePixel]
  by_cases hr : y % 32 = r % 32
  · simp only [hr, if_true, and_true, BitVec.getLsbD_xor, BitVec.getLsbD_twoPow]
    congr 1
    rw [Bool.eq_iff_iff]
    simp only [Bool.and_eq_true, decide_eq_true_eq]
    omega
  · simp [hr]

@[simp] theorem getPixel_clear (c r : Nat) : clear.getPixel c r = false := by
  simp [getPixel, clear]

theorem getPixel_wrap (fb : Framebuffer) {x y c r : Nat} (h : samePixel x y c r) : fb.getPixel x y = fb.getPixel c r := by
  simp only [getPixel, h.1, h.2]

/-- Bitmaps with the same pixels are equal. -/
theorem ext_pixels {fb gb : Framebuffer} (h : ∀ c r, c < 64 → r < 32 → fb.getPixel c r = gb.getPixel c r) : fb = gb := by
  apply Vector.ext
  intro r hr
  apply BitVec.eq_of_getLsbD_eq
  intro i hi
  have hp := h (63 - i) r (by omega) hr
  simpa only [getPixel, Nat.mod_eq_of_lt hr, Nat.mod_eq_of_lt (show 63 - i < 64 by omega),
    show 63 - (63 - i) = i by omega] using hp

end Sys2Proof.Machine.Framebuffer

namespace Sys2Proof.Machine

open Framebuffer

/-- One bit of a sprite with the place it is drawn at. -/
structure SpritePoint where
  on : Bool
  x : Nat
  y : Nat

/-- The points of a sprite row. -/
def rowPoints (row : Byte) (x y : Nat) : List SpritePoint :=
  (List.range 8).map (fun b => ⟨spriteBit row b, x + b, y⟩)

/-- The points of a sprite, in drawing order. -/
def spritePoints (x : Nat) : Nat → List Byte → List SpritePoint
  | _, [] => []
  | y, row :: rows => rowPoints row x y ++ spritePoints x (y + 1) rows

/-- The points drawn one after another. -/
def drawPoints (ps : List SpritePoint) (acc : Framebuffer × Bool) : Framebuffer × Bool :=
  ps.foldl (fun a p => drawBit p.on p.x p.y a) acc

theorem drawRows_eq_drawPoints (x : Nat) (rows : List Byte) : ∀ (y : Nat) (acc : Framebuffer × Bool),
    drawRows x y rows acc = drawPoints (spritePoints x y rows) acc := by
  induction rows with
  | nil => intro y acc; rfl
  | cons row rows ih =>
    intro y acc
    simp only [drawRows, spritePoints, drawPoints, List.foldl_append, ih]
    simp only [drawRow, rowPoints, List.foldl_map]

theorem mem_spritePoints {x : Nat} {rows : List Byte} : ∀ {y : Nat} {p : SpritePoint}, p ∈ spritePoints x y rows ↔
    ∃ k b, ∃ h : k < rows.length, b < 8 ∧ p = ⟨spriteBit rows[k] b, x + b, y + k⟩ := by
  induction rows with
  | nil => simp [spritePoints]
  | cons row rows ih =>
    intro y p
    simp only [spritePoints, List.mem_append, ih, rowPoints, List.mem_map, List.mem_range]
    constructor
    · rintro (⟨b, hb, rfl⟩ | ⟨k, b, hk, hb, rfl⟩)
      · exact ⟨0, b, by simp, hb, by simp⟩
      · exact ⟨k + 1, b, by simpa using hk, hb, by simp; omega⟩
    · rintro ⟨k, b, hk, hb, rfl⟩
      cases k with
      | zero => exact .inl ⟨b, hb, by simp⟩
      | succ k => exact .inr ⟨k, b, by simpa using hk, hb, by simp; omega⟩

/-- No two points of a sprite of at most 32 rows wrap to one pixel (43_display.md R188). -/
theorem spritePoints_distinct (x : Nat) (rows : List Byte) : ∀ (y : Nat), rows.length ≤ 32 →
    (spritePoints x y rows).Pairwise (fun p q => ¬samePixel p.x p.y q.x q.y) := by
  induction rows with
  | nil => intro y _; exact .nil
  | cons row rows ih =>
    intro y hlen
    rw [List.length_cons] at hlen
    refine List.pairwise_append.2 ⟨?_, ih (y + 1) (by omega), ?_⟩
    · refine List.pairwise_map.2 (List.Pairwise.imp_of_mem ?_ (List.nodup_range (n := 8)))
      intro a b ha hb hab hp
      rw [List.mem_range] at ha hb
      have := hp.1
      dsimp only at this
      omega
    · intro p hp q hq hpq
      obtain ⟨b, _, rfl⟩ := List.mem_map.1 hp
      obtain ⟨k, b', hk, _, rfl⟩ := mem_spritePoints.1 hq
      have := hpq.2
      dsimp only at this
      omega

/-- Distinct points drawn: each set point flips its pixel, and it hits when the pixel was on before. -/
theorem drawPoints_spec (ps : List SpritePoint) : ∀ (acc : Framebuffer × Bool),
    ps.Pairwise (fun p q => ¬samePixel p.x p.y q.x q.y) →
    (∀ c r, (drawPoints ps acc).1.getPixel c r =
      (acc.1.getPixel c r ^^ decide (∃ p ∈ ps, p.on = true ∧ samePixel p.x p.y c r))) ∧
    (drawPoints ps acc).2 = (acc.2 || decide (∃ p ∈ ps, p.on = true ∧ acc.1.getPixel p.x p.y = true)) := by
  induction ps with
  | nil => intro acc _; simp [drawPoints]
  | cons p ps ih =>
    intro acc hd
    rw [List.pairwise_cons] at hd
    have hstep : drawPoints (p :: ps) acc = drawPoints ps (drawBit p.on p.x p.y acc) := rfl
    obtain ⟨hpix, hhit⟩ := ih (drawBit p.on p.x p.y acc) hd.2
    rw [hstep]
    refine ⟨fun c r => ?_, ?_⟩
    · rw [hpix]
      cases hon : p.on
      · simp [drawBit, hon]
      · simp only [drawBit, if_true, getPixel_togglePixel, Bool.xor_assoc, List.exists_mem_cons_iff, hon, true_and]
        congr 1
        by_cases hs : samePixel p.x p.y c r
        · have hno : ¬∃ q ∈ ps, q.on = true ∧ samePixel q.x q.y c r := by
            rintro ⟨q, hq, _, hq2⟩
            exact hd.1 q hq ⟨hs.1.trans hq2.1.symm, hs.2.trans hq2.2.symm⟩
          rw [decide_eq_true hs, decide_eq_false hno, decide_eq_true (Or.inl hs)]
          rfl
        · rw [decide_eq_false hs, Bool.false_xor]
          simp [hs]
    · rw [hhit]
      cases hon : p.on
      · simp [drawBit, hon]
      · simp only [drawBit, if_true, List.exists_mem_cons_iff, hon, true_and]
        have hrest : (∃ q ∈ ps, q.on = true ∧ (acc.1.togglePixel p.x p.y).getPixel q.x q.y = true) ↔
            ∃ q ∈ ps, q.on = true ∧ acc.1.getPixel q.x q.y = true := by
          refine exists_congr fun q => and_congr_right fun hq => ?_
          rw [getPixel_togglePixel, decide_eq_false (hd.1 q hq), Bool.xor_false]
        rw [Bool.eq_iff_iff]
        simp only [Bool.or_eq_true, decide_eq_true_eq, hrest, or_assoc]

/-- A pixel that some set bit of a sprite is drawn on: bit `b` of row `k` stands at column `x + b`, row `y + k`, both
wrapped (43_display.md R188). -/
def spriteCovers (rows : List Byte) (x y c r : Nat) : Prop :=
  ∃ k b, ∃ h : k < rows.length, b < 8 ∧ spriteBit rows[k] b = true ∧ samePixel (x + b) (y + k) c r

/-- Everything drawing a sprite does (43_display.md R187 to R189): exactly the covered pixels flip, and it collides
when some covered pixel was on. -/
theorem drawSprite_spec (rows : List Byte) (x y : Nat) (fb : Framebuffer) (h : rows.length ≤ 32) :
    (∀ c r, ((drawSprite rows x y fb).1.getPixel c r = true ↔
      ¬(fb.getPixel c r = true ↔ spriteCovers rows x y c r))) ∧
    ((drawSprite rows x y fb).2 = true ↔ ∃ c r, fb.getPixel c r = true ∧ spriteCovers rows x y c r) := by
  obtain ⟨hpix, hhit⟩ := drawPoints_spec (spritePoints x y rows) (fb, false) (spritePoints_distinct x rows y h)
  rw [drawSprite, drawRows_eq_drawPoints]
  have hcov : ∀ c r, (∃ p ∈ spritePoints x y rows, p.on = true ∧ samePixel p.x p.y c r) ↔ spriteCovers rows x y c r := by
    intro c r
    constructor
    · rintro ⟨p, hp, hon, hs⟩
      obtain ⟨k, b, hk, hb, rfl⟩ := mem_spritePoints.1 hp
      exact ⟨k, b, hk, hb, hon, hs⟩
    · rintro ⟨k, b, hk, hb, hon, hs⟩
      exact ⟨_, mem_spritePoints.2 ⟨k, b, hk, hb, rfl⟩, hon, hs⟩
  refine ⟨fun c r => ?_, ?_⟩
  · rw [hpix, ← hcov]
    cases fb.getPixel c r <;> simp
  · rw [hhit, Bool.false_or, decide_eq_true_eq]
    constructor
    · rintro ⟨p, hp, hon, hg⟩
      exact ⟨p.x, p.y, hg, (hcov _ _).1 ⟨p, hp, hon, rfl, rfl⟩⟩
    · rintro ⟨c, r, hg, hc⟩
      obtain ⟨p, hp, hon, hs⟩ := (hcov c r).2 hc
      exact ⟨p, hp, hon, (getPixel_wrap fb hs).trans hg⟩

end Sys2Proof.Machine
end

