-- ==== Sys2Proof/Laws/Memory.lean ====
section
/-! SUPPORT. Memory: reads after writes, and the canonical form. -/

namespace Sys2Proof.Machine.Memory

theorem lookup_erase (a b : Nat) (m : Memory) : lookup b (erase a m) = if b = a then none else lookup b m := by
  induction m with
  | nil => simp [erase, lookup]
  | cons c m ih =>
    obtain ⟨d, v⟩ := c
    simp only [erase, lookup]
    split <;> rename_i h
    · subst h
      rw [ih]
      split
      · rfl
      · next hne => rw [if_neg (Ne.symm hne)]
    · simp only [lookup, ih]
      split
      · next hd => subst hd; rw [if_neg h]
      · rfl

theorem lookup_insert (a b : Nat) (v : Byte) (m : Memory) (h : lookup a m = none) :
    lookup b (insert a v m) = if b = a then some v else lookup b m := by
  induction m with
  | nil => simp [insert, lookup, eq_comm]
  | cons c m ih =>
    obtain ⟨d, w⟩ := c
    have hd : d ≠ a := by
      rintro rfl
      simp [lookup] at h
    have hm : lookup a m = none := by simpa [lookup, hd] using h
    simp only [insert]
    split
    · simp only [lookup, eq_comm]
    · simp only [lookup, ih hm]
      split
      · next hdb => subst hdb; rw [if_neg hd]
      · rfl

/-- Everything a write does: its own address reads the byte written, every other address reads as before. -/
theorem read_write (m : Memory) (a b : Nat) (v : Byte) :
    (m.write a v).read b = if b = a then v else m.read b := by
  have he := lookup_erase a b m
  unfold write read
  split <;> rename_i hv
  · rw [he]
    split
    · next hb => subst hb; simp [hv]
    · rfl
  · rw [lookup_insert a b v _ (by rw [lookup_erase, if_pos rfl]), he]
    split <;> simp

@[simp] theorem read_write_self (m : Memory) (a : Nat) (v : Byte) : (m.write a v).read a = v := by
  rw [read_write, if_pos rfl]

theorem read_write_of_ne (m : Memory) {a b : Nat} (h : b ≠ a) (v : Byte) : (m.write a v).read b = m.read b := by
  rw [read_write, if_neg h]

/-- Everything a run of writes does. -/
theorem read_writeBytes (vs : List Byte) : ∀ (m : Memory) (a b : Nat),
    (m.writeBytes a vs).read b = if a ≤ b then (vs[b - a]?).getD (m.read b) else m.read b := by
  induction vs with
  | nil => intro m a b; simp [writeBytes]
  | cons v vs ih =>
    intro m a b
    rw [writeBytes, ih, read_write]
    by_cases hab : a < b
    · have h1 : b - a = b - (a + 1) + 1 := by omega
      have h2 : b ≠ a := by omega
      rw [if_pos (show a + 1 ≤ b by omega), if_neg h2, if_pos (show a ≤ b by omega), h1, List.getElem?_cons_succ]
    · by_cases hb : b = a
      · subst hb; simp
      · rw [if_neg (show ¬a + 1 ≤ b by omega), if_neg hb, if_neg (show ¬a ≤ b by omega)]

theorem read_writeBytes_outside (m : Memory) {a b : Nat} (vs : List Byte) (h : b < a ∨ a + vs.length ≤ b) :
    (m.writeBytes a vs).read b = m.read b := by
  rw [read_writeBytes]
  split
  · rw [List.getElem?_eq_none (by omega), Option.getD_none]
  · rfl

theorem wfFrom_mono {lo lo' : Nat} (h : lo' ≤ lo) {m : Memory} (hm : wfFrom lo m = true) : wfFrom lo' m = true := by
  cases m with
  | nil => rfl
  | cons c m =>
    obtain ⟨a, v⟩ := c
    simp only [wfFrom, Bool.and_eq_true, decide_eq_true_eq] at hm ⊢
    exact ⟨⟨⟨by omega, hm.1.1.2⟩, hm.1.2⟩, hm.2⟩

theorem wfFrom_erase (a : Nat) {lo : Nat} {m : Memory} (hm : wfFrom lo m = true) : wfFrom lo (erase a m) = true := by
  induction m generalizing lo with
  | nil => rfl
  | cons c m ih =>
    obtain ⟨d, v⟩ := c
    simp only [wfFrom, Bool.and_eq_true, decide_eq_true_eq] at hm
    simp only [erase]
    split
    · exact wfFrom_mono (by omega) (ih hm.2)
    · simp only [wfFrom, Bool.and_eq_true, decide_eq_true_eq]
      exact ⟨hm.1, ih hm.2⟩

theorem wfFrom_insert {a : Nat} {v : Byte} (ha : a < Config.memSize) (hv : v ≠ initialByte a) {lo : Nat} {m : Memory}
    (hlo : lo ≤ a) (hn : lookup a m = none) (hm : wfFrom lo m = true) : wfFrom lo (insert a v m) = true := by
  induction m generalizing lo with
  | nil => simp [insert, wfFrom, ha, hv, hlo]
  | cons c m ih =>
    obtain ⟨d, w⟩ := c
    have hd : d ≠ a := by
      rintro rfl
      simp [lookup] at hn
    simp only [wfFrom, Bool.and_eq_true, decide_eq_true_eq] at hm
    simp only [insert]
    split <;> simp only [wfFrom, Bool.and_eq_true, decide_eq_true_eq]
    · exact ⟨⟨⟨hlo, ha⟩, hv⟩, ⟨⟨by omega, hm.1.1.2⟩, hm.1.2⟩, hm.2⟩
    · exact ⟨hm.1, ih (by omega) (by simpa [lookup, hd] using hn) hm.2⟩

/-- A write inside memory keeps the canonical form. -/
theorem wf_write {m : Memory} {a : Nat} (ha : a < Config.memSize) (v : Byte) (hm : m.wf = true) :
    (m.write a v).wf = true := by
  unfold write
  split
  · exact wfFrom_erase a hm
  · next hv => exact wfFrom_insert ha hv (Nat.zero_le a) (by rw [lookup_erase, if_pos rfl]) (wfFrom_erase a hm)

theorem wf_writeBytes {vs : List Byte} : ∀ {m : Memory} {a : Nat}, a + vs.length ≤ Config.memSize → m.wf = true →
    (m.writeBytes a vs).wf = true := by
  induction vs with
  | nil => intro m a _ hm; exact hm
  | cons v vs ih =>
    intro m a h hm
    rw [List.length_cons] at h
    exact ih (by omega) (wf_write (by omega) v hm)

@[simp] theorem length_readBytes (m : Memory) (a n : Nat) : (m.readBytes a n).length = n := by simp [readBytes]

@[simp] theorem getElem_readBytes (m : Memory) (a n k : Nat) (h : k < (m.readBytes a n).length) :
    (m.readBytes a n)[k] = m.read (a + k) := by
  simp [readBytes]

/-- In canonical form nothing is listed below the first address. -/
theorem lookup_of_lt {lo b : Nat} {m : Memory} (hm : wfFrom lo m = true) (h : b < lo) : lookup b m = none := by
  induction m generalizing lo with
  | nil => rfl
  | cons c m ih =>
    obtain ⟨a, v⟩ := c
    simp only [wfFrom, Bool.and_eq_true, decide_eq_true_eq] at hm
    rw [lookup, if_neg (by omega), ih hm.2 (by omega)]

end Sys2Proof.Machine.Memory
end

