-- ==== Sys2Proof/Laws/State.lean ====
section
/-! SUPPORT. Each writer of the state, field by field. -/

namespace Sys2Proof.Machine

variable (s : State)

/-! ### setV -/

@[simp] theorem State.setV_mem (x : Reg) (v : Byte) : (s.setV x v).mem = s.mem := rfl
@[simp] theorem State.setV_V (x : Reg) (v : Byte) : (s.setV x v).V = s.V.set x.val v x.isLt := rfl
@[simp] theorem State.setV_I (x : Reg) (v : Byte) : (s.setV x v).I = s.I := rfl
@[simp] theorem State.setV_pc (x : Reg) (v : Byte) : (s.setV x v).pc = s.pc := rfl
@[simp] theorem State.setV_sp (x : Reg) (v : Byte) : (s.setV x v).sp = s.sp := rfl
@[simp] theorem State.setV_stack (x : Reg) (v : Byte) : (s.setV x v).stack = s.stack := rfl
@[simp] theorem State.setV_fb (x : Reg) (v : Byte) : (s.setV x v).fb = s.fb := rfl
@[simp] theorem State.setV_halted (x : Reg) (v : Byte) : (s.setV x v).halted = s.halted := rfl
@[simp] theorem State.setV_draws (x : Reg) (v : Byte) : (s.setV x v).draws = s.draws := rfl
@[simp] theorem State.setV_events (x : Reg) (v : Byte) : (s.setV x v).events = s.events := rfl

/-! ### setRegs -/

@[simp] theorem State.setRegs_mem (V : Vector Byte 16) : (s.setRegs V).mem = s.mem := rfl
@[simp] theorem State.setRegs_V (V : Vector Byte 16) : (s.setRegs V).V = V := rfl
@[simp] theorem State.setRegs_I (V : Vector Byte 16) : (s.setRegs V).I = s.I := rfl
@[simp] theorem State.setRegs_pc (V : Vector Byte 16) : (s.setRegs V).pc = s.pc := rfl
@[simp] theorem State.setRegs_sp (V : Vector Byte 16) : (s.setRegs V).sp = s.sp := rfl
@[simp] theorem State.setRegs_stack (V : Vector Byte 16) : (s.setRegs V).stack = s.stack := rfl
@[simp] theorem State.setRegs_fb (V : Vector Byte 16) : (s.setRegs V).fb = s.fb := rfl
@[simp] theorem State.setRegs_halted (V : Vector Byte 16) : (s.setRegs V).halted = s.halted := rfl
@[simp] theorem State.setRegs_draws (V : Vector Byte 16) : (s.setRegs V).draws = s.draws := rfl
@[simp] theorem State.setRegs_events (V : Vector Byte 16) : (s.setRegs V).events = s.events := rfl

/-! ### setI -/

@[simp] theorem State.setI_mem (v : Word) : (s.setI v).mem = s.mem := rfl
@[simp] theorem State.setI_V (v : Word) : (s.setI v).V = s.V := rfl
@[simp] theorem State.setI_I (v : Word) : (s.setI v).I = v := rfl
@[simp] theorem State.setI_pc (v : Word) : (s.setI v).pc = s.pc := rfl
@[simp] theorem State.setI_sp (v : Word) : (s.setI v).sp = s.sp := rfl
@[simp] theorem State.setI_stack (v : Word) : (s.setI v).stack = s.stack := rfl
@[simp] theorem State.setI_fb (v : Word) : (s.setI v).fb = s.fb := rfl
@[simp] theorem State.setI_halted (v : Word) : (s.setI v).halted = s.halted := rfl
@[simp] theorem State.setI_draws (v : Word) : (s.setI v).draws = s.draws := rfl
@[simp] theorem State.setI_events (v : Word) : (s.setI v).events = s.events := rfl

/-! ### setPc -/

@[simp] theorem State.setPc_mem (p : Word) : (s.setPc p).mem = s.mem := rfl
@[simp] theorem State.setPc_V (p : Word) : (s.setPc p).V = s.V := rfl
@[simp] theorem State.setPc_I (p : Word) : (s.setPc p).I = s.I := rfl
@[simp] theorem State.setPc_pc (p : Word) : (s.setPc p).pc = p := rfl
@[simp] theorem State.setPc_sp (p : Word) : (s.setPc p).sp = s.sp := rfl
@[simp] theorem State.setPc_stack (p : Word) : (s.setPc p).stack = s.stack := rfl
@[simp] theorem State.setPc_fb (p : Word) : (s.setPc p).fb = s.fb := rfl
@[simp] theorem State.setPc_halted (p : Word) : (s.setPc p).halted = s.halted := rfl
@[simp] theorem State.setPc_draws (p : Word) : (s.setPc p).draws = s.draws := rfl
@[simp] theorem State.setPc_events (p : Word) : (s.setPc p).events = s.events := rfl

/-! ### setMem -/

@[simp] theorem State.setMem_mem (m : Memory) : (s.setMem m).mem = m := rfl
@[simp] theorem State.setMem_V (m : Memory) : (s.setMem m).V = s.V := rfl
@[simp] theorem State.setMem_I (m : Memory) : (s.setMem m).I = s.I := rfl
@[simp] theorem State.setMem_pc (m : Memory) : (s.setMem m).pc = s.pc := rfl
@[simp] theorem State.setMem_sp (m : Memory) : (s.setMem m).sp = s.sp := rfl
@[simp] theorem State.setMem_stack (m : Memory) : (s.setMem m).stack = s.stack := rfl
@[simp] theorem State.setMem_fb (m : Memory) : (s.setMem m).fb = s.fb := rfl
@[simp] theorem State.setMem_halted (m : Memory) : (s.setMem m).halted = s.halted := rfl
@[simp] theorem State.setMem_draws (m : Memory) : (s.setMem m).draws = s.draws := rfl
@[simp] theorem State.setMem_events (m : Memory) : (s.setMem m).events = s.events := rfl

/-! ### setFb -/

@[simp] theorem State.setFb_mem (fb : Framebuffer) : (s.setFb fb).mem = s.mem := rfl
@[simp] theorem State.setFb_V (fb : Framebuffer) : (s.setFb fb).V = s.V := rfl
@[simp] theorem State.setFb_I (fb : Framebuffer) : (s.setFb fb).I = s.I := rfl
@[simp] theorem State.setFb_pc (fb : Framebuffer) : (s.setFb fb).pc = s.pc := rfl
@[simp] theorem State.setFb_sp (fb : Framebuffer) : (s.setFb fb).sp = s.sp := rfl
@[simp] theorem State.setFb_stack (fb : Framebuffer) : (s.setFb fb).stack = s.stack := rfl
@[simp] theorem State.setFb_fb (fb : Framebuffer) : (s.setFb fb).fb = fb := rfl
@[simp] theorem State.setFb_halted (fb : Framebuffer) : (s.setFb fb).halted = s.halted := rfl
@[simp] theorem State.setFb_draws (fb : Framebuffer) : (s.setFb fb).draws = s.draws := rfl
@[simp] theorem State.setFb_events (fb : Framebuffer) : (s.setFb fb).events = s.events := rfl

/-! ### countDraw -/

@[simp] theorem State.countDraw_mem : (s.countDraw).mem = s.mem := rfl
@[simp] theorem State.countDraw_V : (s.countDraw).V = s.V := rfl
@[simp] theorem State.countDraw_I : (s.countDraw).I = s.I := rfl
@[simp] theorem State.countDraw_pc : (s.countDraw).pc = s.pc := rfl
@[simp] theorem State.countDraw_sp : (s.countDraw).sp = s.sp := rfl
@[simp] theorem State.countDraw_stack : (s.countDraw).stack = s.stack := rfl
@[simp] theorem State.countDraw_fb : (s.countDraw).fb = s.fb := rfl
@[simp] theorem State.countDraw_halted : (s.countDraw).halted = s.halted := rfl
@[simp] theorem State.countDraw_draws : (s.countDraw).draws = s.draws + 1 := rfl
@[simp] theorem State.countDraw_events : (s.countDraw).events = s.events := rfl

/-! ### emit -/

@[simp] theorem State.emit_mem (e : PortEvent) : (s.emit e).mem = s.mem := rfl
@[simp] theorem State.emit_V (e : PortEvent) : (s.emit e).V = s.V := rfl
@[simp] theorem State.emit_I (e : PortEvent) : (s.emit e).I = s.I := rfl
@[simp] theorem State.emit_pc (e : PortEvent) : (s.emit e).pc = s.pc := rfl
@[simp] theorem State.emit_sp (e : PortEvent) : (s.emit e).sp = s.sp := rfl
@[simp] theorem State.emit_stack (e : PortEvent) : (s.emit e).stack = s.stack := rfl
@[simp] theorem State.emit_fb (e : PortEvent) : (s.emit e).fb = s.fb := rfl
@[simp] theorem State.emit_halted (e : PortEvent) : (s.emit e).halted = s.halted := rfl
@[simp] theorem State.emit_draws (e : PortEvent) : (s.emit e).draws = s.draws := rfl
@[simp] theorem State.emit_events (e : PortEvent) : (s.emit e).events = s.events ++ [e] := rfl

/-! ### halt -/

@[simp] theorem State.halt_mem (f : Fault) : (s.halt f).mem = s.mem := rfl
@[simp] theorem State.halt_V (f : Fault) : (s.halt f).V = s.V := rfl
@[simp] theorem State.halt_I (f : Fault) : (s.halt f).I = s.I := rfl
@[simp] theorem State.halt_pc (f : Fault) : (s.halt f).pc = s.pc := rfl
@[simp] theorem State.halt_sp (f : Fault) : (s.halt f).sp = s.sp := rfl
@[simp] theorem State.halt_stack (f : Fault) : (s.halt f).stack = s.stack := rfl
@[simp] theorem State.halt_fb (f : Fault) : (s.halt f).fb = s.fb := rfl
@[simp] theorem State.halt_halted (f : Fault) : (s.halt f).halted = some f := rfl
@[simp] theorem State.halt_draws (f : Fault) : (s.halt f).draws = s.draws := rfl
@[simp] theorem State.halt_events (f : Fault) : (s.halt f).events = s.events := rfl

/-! ### advance -/

@[simp] theorem State.advance_mem : (s.advance).mem = s.mem := rfl
@[simp] theorem State.advance_V : (s.advance).V = s.V := rfl
@[simp] theorem State.advance_I : (s.advance).I = s.I := rfl
@[simp] theorem State.advance_pc : (s.advance).pc = s.pc + 2#16 := rfl
@[simp] theorem State.advance_sp : (s.advance).sp = s.sp := rfl
@[simp] theorem State.advance_stack : (s.advance).stack = s.stack := rfl
@[simp] theorem State.advance_fb : (s.advance).fb = s.fb := rfl
@[simp] theorem State.advance_halted : (s.advance).halted = s.halted := rfl
@[simp] theorem State.advance_draws : (s.advance).draws = s.draws := rfl
@[simp] theorem State.advance_events : (s.advance).events = s.events := rfl

/-! ### skipIf -/

@[simp] theorem State.skipIf_mem (c : Bool) : (s.skipIf c).mem = s.mem := rfl
@[simp] theorem State.skipIf_V (c : Bool) : (s.skipIf c).V = s.V := rfl
@[simp] theorem State.skipIf_I (c : Bool) : (s.skipIf c).I = s.I := rfl
@[simp] theorem State.skipIf_pc (c : Bool) : (s.skipIf c).pc = s.pc + if c then 4#16 else 2#16 := rfl
@[simp] theorem State.skipIf_sp (c : Bool) : (s.skipIf c).sp = s.sp := rfl
@[simp] theorem State.skipIf_stack (c : Bool) : (s.skipIf c).stack = s.stack := rfl
@[simp] theorem State.skipIf_fb (c : Bool) : (s.skipIf c).fb = s.fb := rfl
@[simp] theorem State.skipIf_halted (c : Bool) : (s.skipIf c).halted = s.halted := rfl
@[simp] theorem State.skipIf_draws (c : Bool) : (s.skipIf c).draws = s.draws := rfl
@[simp] theorem State.skipIf_events (c : Bool) : (s.skipIf c).events = s.events := rfl

/-! ### setFlag -/

@[simp] theorem State.setFlag_mem (b : Bool) : (s.setFlag b).mem = s.mem := rfl
@[simp] theorem State.setFlag_V (b : Bool) : (s.setFlag b).V = s.V.set flagReg.val (bool01 b) flagReg.isLt := rfl
@[simp] theorem State.setFlag_I (b : Bool) : (s.setFlag b).I = s.I := rfl
@[simp] theorem State.setFlag_pc (b : Bool) : (s.setFlag b).pc = s.pc := rfl
@[simp] theorem State.setFlag_sp (b : Bool) : (s.setFlag b).sp = s.sp := rfl
@[simp] theorem State.setFlag_stack (b : Bool) : (s.setFlag b).stack = s.stack := rfl
@[simp] theorem State.setFlag_fb (b : Bool) : (s.setFlag b).fb = s.fb := rfl
@[simp] theorem State.setFlag_halted (b : Bool) : (s.setFlag b).halted = s.halted := rfl
@[simp] theorem State.setFlag_draws (b : Bool) : (s.setFlag b).draws = s.draws := rfl
@[simp] theorem State.setFlag_events (b : Bool) : (s.setFlag b).events = s.events := rfl

/-! ### setResultFlag -/

@[simp] theorem State.setResultFlag_mem (x : Reg) (v : Byte) (b : Bool) : (s.setResultFlag x v b).mem = s.mem := rfl
@[simp] theorem State.setResultFlag_I (x : Reg) (v : Byte) (b : Bool) : (s.setResultFlag x v b).I = s.I := rfl
@[simp] theorem State.setResultFlag_pc (x : Reg) (v : Byte) (b : Bool) : (s.setResultFlag x v b).pc = s.pc := rfl
@[simp] theorem State.setResultFlag_sp (x : Reg) (v : Byte) (b : Bool) : (s.setResultFlag x v b).sp = s.sp := rfl
@[simp] theorem State.setResultFlag_stack (x : Reg) (v : Byte) (b : Bool) : (s.setResultFlag x v b).stack = s.stack := rfl
@[simp] theorem State.setResultFlag_fb (x : Reg) (v : Byte) (b : Bool) : (s.setResultFlag x v b).fb = s.fb := rfl
@[simp] theorem State.setResultFlag_halted (x : Reg) (v : Byte) (b : Bool) : (s.setResultFlag x v b).halted = s.halted := rfl
@[simp] theorem State.setResultFlag_draws (x : Reg) (v : Byte) (b : Bool) : (s.setResultFlag x v b).draws = s.draws := rfl
@[simp] theorem State.setResultFlag_events (x : Reg) (v : Byte) (b : Bool) : (s.setResultFlag x v b).events = s.events := rfl

/-! ### Reading registers after a write -/

theorem State.getV_setV (x y : Reg) (v : Byte) : (s.setV x v).getV y = if y = x then v else s.getV y := by
  simp only [State.getV, State.setV_V, Vector.getElem_set, Fin.ext_iff, eq_comm]

@[simp] theorem State.getV_setV_self (x : Reg) (v : Byte) : (s.setV x v).getV x = v := by
  rw [State.getV_setV, if_pos rfl]

theorem State.getV_setV_of_ne {x y : Reg} (h : y ≠ x) (v : Byte) : (s.setV x v).getV y = s.getV y := by
  rw [State.getV_setV, if_neg h]

/-- The flag is written last: for `x = 15` it is what remains. -/
theorem State.getV_setResultFlag (x y : Reg) (v : Byte) (b : Bool) : (s.setResultFlag x v b).getV y =
    if y = 15 then bool01 b else if y = x then v else s.getV y := by
  simp only [State.setResultFlag, State.setFlag, State.getV_setV, flagReg]

/-- Two register files that read the same everywhere are equal. -/
theorem regs_ext {V W : Vector Byte 16} (h : ∀ x : Reg, V[x.val]'x.isLt = W[x.val]'x.isLt) : V = W :=
  Vector.ext fun i hi => h ⟨i, hi⟩

end Sys2Proof.Machine
end

