-- ==== Sys2Proof/Laws/Ops.lean ====
section
/-! SUPPORT. What each shared operation can do, said once. -/

namespace Sys2Proof.Machine

/-! ## Raising a fault -/

/-- Raising a fault answers one next state: the old one with the record. -/
theorem raise_next_iff {s t : State} {f : Fault} : raise s f = .next t ↔ t = s.halt f := by
  simp only [raise, Host.Outcome.next.injEq, eq_comm]

/-! ## The stack -/

theorem push_of_lt {s : State} (h : s.sp.val < 16) :
    s.push = some { s with stack := s.stack.set s.sp.val s.pc h, sp := ⟨s.sp.val + 1, by omega⟩ } := dif_pos h

theorem push_of_full {s : State} (h : s.sp = 16) : s.push = none := by
  rw [State.push, dif_neg (by rw [h]; decide)]

/-- A push that succeeds found room, wrote `pc` at the old `sp` and raised `sp` by one. -/
theorem push_eq_some {s t : State} (h : s.push = some t) : ∃ hs : s.sp.val < 16,
    t = { s with stack := s.stack.set s.sp.val s.pc hs, sp := ⟨s.sp.val + 1, by omega⟩ } := by
  unfold State.push at h
  split at h
  · next hs => exact ⟨hs, (Option.some.inj h).symm⟩
  · exact nomatch h

theorem push_eq_none {s : State} : s.push = none ↔ s.sp = 16 := by
  unfold State.push
  split
  · next h => exact ⟨fun h' => (nomatch h'), fun h' => by rw [h'] at h; exact absurd h (by decide)⟩
  · next h => exact ⟨fun _ => Fin.ext (by have := s.sp.isLt; simp; omega), fun _ => rfl⟩

theorem pop_of_pos {s : State} (h : 0 < s.sp.val) :
    s.pop = some (s.stack[s.sp.val - 1]'(by omega), { s with sp := ⟨s.sp.val - 1, by omega⟩ }) := dif_pos h

/-- A pop that succeeds found an entry, lowered `sp` by one and left the entries as they were. -/
theorem pop_eq_some {s t : State} {top : Word} (h : s.pop = some (top, t)) : ∃ hs : 0 < s.sp.val,
    top = s.stack[s.sp.val - 1]'(by omega) ∧ t = { s with sp := ⟨s.sp.val - 1, by omega⟩ } := by
  unfold State.pop at h
  split at h
  · next hs =>
    have h' := Option.some.inj h
    exact ⟨hs, (Prod.mk.inj h').1.symm, (Prod.mk.inj h').2.symm⟩
  · exact nomatch h

theorem pop_eq_none {s : State} : s.pop = none ↔ s.sp = 0 := by
  unfold State.pop
  split
  · next h => exact ⟨fun h' => (nomatch h'), fun h' => by rw [h'] at h; exact absurd h (by decide)⟩
  · next h => exact ⟨fun _ => Fin.ext (by simp; omega), fun _ => rfl⟩

/-! ## Checked data accesses -/

/-- No address of the access fails exactly when all of them are inside memory. -/
theorem firstOutOfRange_eq_none {s : State} {n : Nat} :
    s.firstOutOfRange n = none ↔ ∀ k, k < n → s.I.toNat + k < 4096 := by
  simp only [State.firstOutOfRange, List.find?_eq_none, List.mem_map, List.mem_range, State.ea, Config.memSize,
    decide_eq_true_eq, forall_exists_index, and_imp]
  exact ⟨fun h k hk => Nat.lt_of_not_le (h _ k hk rfl), fun h a k hk e => by subst e; exact Nat.not_le.2 (h k hk)⟩

/-- The address reported is the first that fails. -/
theorem firstOutOfRange_eq_some {s : State} {n a : Nat} (h : s.firstOutOfRange n = some a) :
    ∃ k, k < n ∧ a = s.I.toNat + k ∧ 4096 ≤ a ∧ ∀ j, j < k → s.I.toNat + j < 4096 := by
  rw [State.firstOutOfRange, List.find?_eq_some_iff_getElem] at h
  obtain ⟨ha, k, hk, hka, hall⟩ := h
  simp only [List.length_map, List.length_range] at hk
  simp only [List.getElem_map, List.getElem_range, State.ea] at hka hall
  refine ⟨k, hk, hka.symm, by simpa [Config.memSize] using ha, fun j hj => ?_⟩
  have := hall j hj
  simpa [Config.memSize] using this

/-- The lowest failing address, in closed form. -/
theorem firstOutOfRange_of_gt {s : State} {n : Nat} (hn : 0 < n) (h : 4096 < s.I.toNat + n) :
    s.firstOutOfRange n = some (max s.I.toNat 4096) := by
  cases hf : s.firstOutOfRange n with
  | none =>
    have := firstOutOfRange_eq_none.1 hf (n - 1) (by omega)
    omega
  | some a =>
    obtain ⟨k, hk, rfl, h1, h2⟩ := firstOutOfRange_eq_some hf
    cases k with
    | zero => congr 1; omega
    | succ k => have := h2 k (by omega); congr 1; omega

theorem withDataRange_of_le {s : State} {i : Instr} {n : Nat} {k : State → Result} (h : s.I.toNat + n ≤ 4096) :
    withDataRange s i n k = k s := by
  rw [withDataRange, firstOutOfRange_eq_none.2 (fun j hj => by omega)]

/-- An access to no byte is never out of range, wherever `I` points (43_display.md R190). -/
theorem withDataRange_zero {s : State} {i : Instr} {k : State → Result} : withDataRange s i 0 k = k s := by
  rw [withDataRange, firstOutOfRange_eq_none.2 (fun j hj => absurd hj (Nat.not_lt_zero j))]

theorem withDataRange_of_gt {s : State} {i : Instr} {n : Nat} {k : State → Result} (hn : 0 < n)
    (h : 4096 < s.I.toNat + n) :
    withDataRange s i n k = .next (s.halt (.dataBounds s.pc (encode i) (max s.I.toNat 4096))) := by
  simp only [withDataRange, firstOutOfRange_of_gt hn h, raise]

/-- A checked access either reports its lowest failing address or goes on with every address inside memory. -/
theorem withDataRange_next {s t : State} {i : Instr} {n : Nat} {k : State → Result}
    (h : withDataRange s i n k = .next t) :
    (∃ j, j < n ∧ 4096 ≤ s.I.toNat + j ∧ (∀ j', j' < j → s.I.toNat + j' < 4096) ∧
      t = s.halt (.dataBounds s.pc (encode i) (s.I.toNat + j))) ∨
    ((∀ j, j < n → s.I.toNat + j < 4096) ∧ k s = .next t) := by
  unfold withDataRange at h
  split at h
  · next a ha =>
    obtain ⟨j, hj, rfl, h1, h2⟩ := firstOutOfRange_eq_some ha
    exact .inl ⟨j, hj, h1, h2, raise_next_iff.1 h⟩
  · next ha => exact .inr ⟨firstOutOfRange_eq_none.1 ha, h⟩

/-! ## Bytes of data -/

@[simp] theorem length_decimalDigits (v : Byte) : (decimalDigits v).length = 3 := rfl

@[simp] theorem length_regsUpTo (s : State) (x : Reg) : (s.regsUpTo x).length = x.val + 1 := by
  have := x.isLt
  simp only [State.regsUpTo, List.length_take, Vector.length_toList]
  omega

theorem getElem?_regsUpTo (s : State) (x k : Reg) (h : k ≤ x) : (s.regsUpTo x)[k.val]? = some (s.getV k) := by
  have hk := k.isLt
  have hkx : k.val ≤ x.val := h
  rw [State.regsUpTo, List.getElem?_take_of_lt (by omega), List.getElem?_eq_getElem (by simp)]
  simp [State.getV]

/-- Registers filled from a list: the listed ones take the bytes, the others keep their values. -/
theorem getElem_fillRegs (bs : List Byte) : ∀ (k : Nat) (V : Vector Byte 16) (j : Nat) (hj : j < 16),
    (fillRegs bs k V)[j] = if k ≤ j then (bs[j - k]?).getD V[j] else V[j] := by
  induction bs with
  | nil => intro k V j hj; simp [fillRegs]
  | cons b bs ih =>
    intro k V j hj
    rw [fillRegs, ih, Vector.getElem_setIfInBounds]
    by_cases hkj : k < j
    · have h1 : j - k = j - (k + 1) + 1 := by omega
      rw [if_pos (show k + 1 ≤ j by omega), if_neg (by omega), if_pos (show k ≤ j by omega), h1,
        List.getElem?_cons_succ]
    · by_cases hb : k = j
      · subst hb; simp
      · rw [if_neg (show ¬k + 1 ≤ j by omega), if_neg hb, if_neg (show ¬k ≤ j by omega)]

/-! ## Fetch -/

theorem fetch_of_lt {s : State} (h : s.pc.toNat + 1 < 4096) :
    s.fetch = some (wordOfBytes (s.mem.read s.pc.toNat) (s.mem.read (s.pc.toNat + 1))) := if_pos h

theorem fetch_eq_none {s : State} : s.fetch = none ↔ 4096 ≤ s.pc.toNat + 1 := by
  unfold State.fetch
  split
  · next h => exact ⟨fun h' => (nomatch h'), fun h' => absurd h (Nat.not_lt.2 h')⟩
  · next h => exact ⟨fun _ => Nat.le_of_not_lt h, fun _ => rfl⟩

theorem fetch_eq_some {s : State} {w : Word} (h : s.fetch = some w) :
    s.pc.toNat + 1 < 4096 ∧ w = wordOfBytes (s.mem.read s.pc.toNat) (s.mem.read (s.pc.toNat + 1)) := by
  unfold State.fetch at h
  split at h
  · next hp => exact ⟨hp, (Option.some.inj h).symm⟩
  · exact nomatch h

/-- A word placed at `pc` is the word fetched there. -/
theorem fetch_placeWord {s : State} (w : Word) (h : s.pc.toNat + 1 < 4096) : (s.placeWord w).fetch = some w := by
  rw [fetch_of_lt (by exact h)]
  simp only [State.placeWord, State.setMem_mem, State.setMem_pc, Memory.read_write_self]
  rw [Memory.read_write_of_ne _ (by omega), Memory.read_write_self, wordOfBytes_high_low]

/-! ## The loader -/

theorem loaderWrite_of_lt {s : State} {a : Nat} (v : Byte) (hs : s.halted = none) (h : a < 4096) :
    s.loaderWrite a v = s.setMem (s.mem.write a v) := by
  rw [State.loaderWrite, hs]
  exact if_pos h

theorem loadImage_of_le {s : State} {image : List Byte} (hs : s.halted = none) (h : image.length ≤ 0xDFF) :
    s.loadImage image = s.setMem (s.mem.writeBytes 0x200 image) := by
  rw [State.loadImage, hs]
  exact if_pos h

end Sys2Proof.Machine
end

