-- ==== Sys2Proof/Laws/PerInstr.lean ====
section
/-! SUPPORT. Facts about every instruction as syntax, one lemma per constructor. -/

namespace Sys2Proof.Laws.TableRow

/-- The mask and match of an instruction's row of opcode_table.json, copied from the table. -/
def row : Instr → Word × Word
  | .nop _ => (0xF0FF#16, 0x0000#16)
  | .cls _ => (0xF0FF#16, 0x00E0#16)
  | .ret _ => (0xF0FF#16, 0x00EE#16)
  | .jp _ => (0xF000#16, 0x1000#16)
  | .call _ => (0xF000#16, 0x2000#16)
  | .seImm _ _ => (0xF000#16, 0x3000#16)
  | .sneImm _ _ => (0xF000#16, 0x4000#16)
  | .seReg _ _ _ => (0xF000#16, 0x5000#16)
  | .ldImm _ _ => (0xF000#16, 0x6000#16)
  | .addImm _ _ => (0xF000#16, 0x7000#16)
  | .ldReg _ _ => (0xF00F#16, 0x8000#16)
  | .orReg _ _ => (0xF00F#16, 0x8001#16)
  | .andReg _ _ => (0xF00F#16, 0x8002#16)
  | .xorReg _ _ => (0xF00F#16, 0x8003#16)
  | .addReg _ _ => (0xF00F#16, 0x8004#16)
  | .sub _ _ => (0xF00F#16, 0x8005#16)
  | .shr _ _ => (0xF00F#16, 0x8006#16)
  | .subn _ _ => (0xF00F#16, 0x8007#16)
  | .shl _ _ => (0xF00F#16, 0x800E#16)
  | .sneReg _ _ _ => (0xF000#16, 0x9000#16)
  | .ldI _ => (0xF000#16, 0xA000#16)
  | .jpV0 _ => (0xF000#16, 0xB000#16)
  | .rnd _ _ => (0xF000#16, 0xC000#16)
  | .drw _ _ _ => (0xF000#16, 0xD000#16)
  | .skp _ => (0xF0FF#16, 0xE09E#16)
  | .sknp _ => (0xF0FF#16, 0xE0A1#16)
  | .ldVxDT _ => (0xF0FF#16, 0xF007#16)
  | .ldVxK _ => (0xF0FF#16, 0xF00A#16)
  | .ldDTVx _ => (0xF0FF#16, 0xF015#16)
  | .ldSTVx _ => (0xF0FF#16, 0xF018#16)
  | .addI _ => (0xF0FF#16, 0xF01E#16)
  | .ldF _ => (0xF0FF#16, 0xF029#16)
  | .ldB _ => (0xF0FF#16, 0xF033#16)
  | .storeRegs _ => (0xF0FF#16, 0xF055#16)
  | .loadRegs _ => (0xF0FF#16, 0xF065#16)

/-- The encoder's word matches the instruction's own row of the table. -/
def Statement (i : Instr) : Prop := encode i &&& (row i).1 = (row i).2

theorem mask_op (w : Word) : w &&& 0xF000#16 = wordNNN (fieldOp w) 0#12 := by
  apply BitVec.eq_of_getLsbD_eq
  intro i hi
  rw [BitVec.getLsbD_and, wordNNN, BitVec.getLsbD_append, fieldOp, BitVec.getLsbD_extractLsb']
  interval_cases i <;> simp

theorem mask_op_kk (w : Word) : w &&& 0xF0FF#16 = wordXKK (fieldOp w) 0#4 (fieldKK w) := by
  apply BitVec.eq_of_getLsbD_eq
  intro i hi
  rw [BitVec.getLsbD_and, wordXKK, BitVec.getLsbD_append, BitVec.getLsbD_append, fieldOp, fieldKK,
    BitVec.getLsbD_extractLsb', BitVec.getLsbD_extractLsb']
  interval_cases i <;> simp

theorem mask_op_n (w : Word) : w &&& 0xF00F#16 = wordXYN (fieldOp w) 0#4 0#4 (fieldN w) := by
  apply BitVec.eq_of_getLsbD_eq
  intro i hi
  rw [BitVec.getLsbD_and, wordXYN, BitVec.getLsbD_append, BitVec.getLsbD_append, BitVec.getLsbD_append, fieldOp, fieldN,
    BitVec.getLsbD_extractLsb', BitVec.getLsbD_extractLsb']
  interval_cases i <;> simp

theorem nop (ign : Nibble) : Statement (.nop ign) := by
  simp [Statement, row, encode, mask_op_kk]
  rfl

theorem cls (ign : Nibble) : Statement (.cls ign) := by
  simp [Statement, row, encode, mask_op_kk]
  rfl

theorem ret (ign : Nibble) : Statement (.ret ign) := by
  simp [Statement, row, encode, mask_op_kk]
  rfl

theorem jp (nnn : Addr12) : Statement (.jp nnn) := by
  simp [Statement, row, encode, mask_op]
  rfl

theorem call (nnn : Addr12) : Statement (.call nnn) := by
  simp [Statement, row, encode, mask_op]
  rfl

theorem seImm (x : Reg) (kk : Byte) : Statement (.seImm x kk) := by
  simp [Statement, row, encode, mask_op]
  rfl

theorem sneImm (x : Reg) (kk : Byte) : Statement (.sneImm x kk) := by
  simp [Statement, row, encode, mask_op]
  rfl

theorem seReg (x : Reg) (y : Reg) (ign : Nibble) : Statement (.seReg x y ign) := by
  simp [Statement, row, encode, mask_op]
  rfl

theorem ldImm (x : Reg) (kk : Byte) : Statement (.ldImm x kk) := by
  simp [Statement, row, encode, mask_op]
  rfl

theorem addImm (x : Reg) (kk : Byte) : Statement (.addImm x kk) := by
  simp [Statement, row, encode, mask_op]
  rfl

theorem ldReg (x : Reg) (y : Reg) : Statement (.ldReg x y) := by
  simp [Statement, row, encode, mask_op_n]
  rfl

theorem orReg (x : Reg) (y : Reg) : Statement (.orReg x y) := by
  simp [Statement, row, encode, mask_op_n]
  rfl

theorem andReg (x : Reg) (y : Reg) : Statement (.andReg x y) := by
  simp [Statement, row, encode, mask_op_n]
  rfl

theorem xorReg (x : Reg) (y : Reg) : Statement (.xorReg x y) := by
  simp [Statement, row, encode, mask_op_n]
  rfl

theorem addReg (x : Reg) (y : Reg) : Statement (.addReg x y) := by
  simp [Statement, row, encode, mask_op_n]
  rfl

theorem sub (x : Reg) (y : Reg) : Statement (.sub x y) := by
  simp [Statement, row, encode, mask_op_n]
  rfl

theorem shr (x : Reg) (ign : Nibble) : Statement (.shr x ign) := by
  simp [Statement, row, encode, mask_op_n]
  rfl

theorem subn (x : Reg) (y : Reg) : Statement (.subn x y) := by
  simp [Statement, row, encode, mask_op_n]
  rfl

theorem shl (x : Reg) (ign : Nibble) : Statement (.shl x ign) := by
  simp [Statement, row, encode, mask_op_n]
  rfl

theorem sneReg (x : Reg) (y : Reg) (ign : Nibble) : Statement (.sneReg x y ign) := by
  simp [Statement, row, encode, mask_op]
  rfl

theorem ldI (nnn : Addr12) : Statement (.ldI nnn) := by
  simp [Statement, row, encode, mask_op]
  rfl

theorem jpV0 (nnn : Addr12) : Statement (.jpV0 nnn) := by
  simp [Statement, row, encode, mask_op]
  rfl

theorem rnd (x : Reg) (kk : Byte) : Statement (.rnd x kk) := by
  simp [Statement, row, encode, mask_op]
  rfl

theorem drw (x : Reg) (y : Reg) (n : Nat) : Statement (.drw x y n) := by
  simp [Statement, row, encode, mask_op]
  rfl

theorem skp (x : Reg) : Statement (.skp x) := by
  simp [Statement, row, encode, mask_op_kk]
  rfl

theorem sknp (x : Reg) : Statement (.sknp x) := by
  simp [Statement, row, encode, mask_op_kk]
  rfl

theorem ldVxDT (x : Reg) : Statement (.ldVxDT x) := by
  simp [Statement, row, encode, mask_op_kk]
  rfl

theorem ldVxK (x : Reg) : Statement (.ldVxK x) := by
  simp [Statement, row, encode, mask_op_kk]
  rfl

theorem ldDTVx (x : Reg) : Statement (.ldDTVx x) := by
  simp [Statement, row, encode, mask_op_kk]
  rfl

theorem ldSTVx (x : Reg) : Statement (.ldSTVx x) := by
  simp [Statement, row, encode, mask_op_kk]
  rfl

theorem addI (x : Reg) : Statement (.addI x) := by
  simp [Statement, row, encode, mask_op_kk]
  rfl

theorem ldF (x : Reg) : Statement (.ldF x) := by
  simp [Statement, row, encode, mask_op_kk]
  rfl

theorem ldB (x : Reg) : Statement (.ldB x) := by
  simp [Statement, row, encode, mask_op_kk]
  rfl

theorem storeRegs (x : Reg) : Statement (.storeRegs x) := by
  simp [Statement, row, encode, mask_op_kk]
  rfl

theorem loadRegs (x : Reg) : Statement (.loadRegs x) := by
  simp [Statement, row, encode, mask_op_kk]
  rfl

end Sys2Proof.Laws.TableRow
end

