-- ==== Sys2Proof/Laws/Step.lean ====
section
/-! SUPPORT. What a step can do, said once. -/

namespace Sys2Proof.Machine

/-- A step that answers a next state was taken by a block that is not halted, and either its fetch failed, or its word
is no instruction, or it executed the instruction it fetched. -/
theorem step_next {s t : State} (h : step s = .next t) : s.halted = none ∧
    ((s.fetch = none ∧ t = s.halt (.fetchBounds s.pc)) ∨
      (∃ w e, s.fetch = some w ∧ decodeWord w = .error e ∧ t = s.halt (.decodeError s.pc w)) ∨
      ∃ w i, s.fetch = some w ∧ decodeWord w = .ok i ∧ exec i s = .next t) := by
  unfold step at h
  split at h
  · exact nomatch h
  · next hh =>
    refine ⟨hh, ?_⟩
    split at h
    · next hf => exact .inl ⟨hf, raise_next_iff.1 h⟩
    · next w hf =>
      split at h
      · next e hd => exact .inr (.inl ⟨w, e, hf, hd, raise_next_iff.1 h⟩)
      · next i hd => exact .inr (.inr ⟨w, i, hf, hd, h⟩)

theorem step_of_halted {s : State} {f : Fault} (h : s.halted = some f) : step s = .fault f := by
  rw [step, h]

theorem step_of_fetch_none {s : State} (h : s.halted = none) (hf : s.fetch = none) :
    step s = .next (s.halt (.fetchBounds s.pc)) := by
  rw [step, h]
  simp only [hf, raise]

theorem step_of_error {s : State} {w : Word} {e : Reject} (h : s.halted = none) (hf : s.fetch = some w)
    (hd : decodeWord w = .error e) : step s = .next (s.halt (.decodeError s.pc w)) := by
  rw [step, h]
  simp only [hf, hd, raise]

theorem step_of_ok {s : State} {w : Word} {i : Instr} (h : s.halted = none) (hf : s.fetch = some w)
    (hd : decodeWord w = .ok i) : step s = exec i s := by
  rw [step, h]
  simp only [hf, hd]

end Sys2Proof.Machine
end

