-- ==== Sys2Proof/Tests/Slice0.lean ====
section
/-! SUPPORT. Tests. Words are written out from 30_encoding.md R76; states and results are the rows of
95_test_vectors.md named in each comment (W, F, C, A, I, D, P) or are worked out by hand from the cited rule. After
them, one witness for each statement that has hypotheses. -/

namespace Sys2Proof.Tests

open Sys2Proof.Machine

set_option maxRecDepth 4000

/-! ## Helpers -/

/-- The reset state with a word at 0x200. -/
def given (w : Nat) : State := State.reset.withFetchWord 16 w

/-- The same with the program counter, and so the word, elsewhere. -/
def givenAt (pc : Word) (w : Nat) : State := (State.reset.setPc pc).withFetchWord 16 w

/-- Bytes stored from an address on. -/
def withBytes (s : State) (a : Nat) (bs : List Byte) : State := s.setMem (s.mem.writeBytes a bs)

/-- Pixels turned on. -/
def withPixels (s : State) (ps : List (Nat × Nat)) : State :=
  s.setFb (ps.foldl (fun fb p => fb.togglePixel p.1 p.2) s.fb)

/-- A stack pointer, every entry the same. -/
def withStack (s : State) (sp : Fin 17) (v : Word) : State := { s with sp := sp, stack := Vector.replicate 16 v }

/-- `V[k] = k` for every register. -/
def countingRegs : Vector Byte 16 := #v[0, 1, 2, 3, 4, 5, 6, 7, 8, 9, 10, 11, 12, 13, 14, 15]

/-- What a view shows of a next state. -/
def after {α : Type} (r : Result) (f : State → α) : Option α :=
  match r with
  | .next t => some (f t)
  | .fault _ => none
  | .refused _ => none

/-- What decoding a word gives, by its two bytes in memory order. -/
def decoded (hi lo : Byte) : Option Instr := ((decode [hi, lo]).toOption).map Prod.fst

/-! ## Well-formedness -/

theorem test_wellFormed_refuses_height_16 : (Instr.drw 0 0 16).wellFormed = false := by decide

theorem test_wellFormed_accepts_height_15 : (Instr.drw 15 15 15).wellFormed = true := by decide

/-! ## Decoding: one word of every row, written out from R76 -/

theorem test_decode_group0 :
    decoded 0x00 0x00 = some (.nop 0) ∧ decoded 0x05 0xE0 = some (.cls 5) ∧ decoded 0x0A 0xEE = some (.ret 0xA) := by
  decide

theorem test_decode_jumps :
    decoded 0x1A 0xBC = some (.jp 0xABC) ∧ decoded 0x22 0x0A = some (.call 0x20A) ∧
    decoded 0xB3 0x01 = some (.jpV0 0x301) := by decide

theorem test_decode_skips :
    decoded 0x3A 0x7B = some (.seImm 10 0x7B) ∧ decoded 0x4B 0x7C = some (.sneImm 11 0x7C) ∧
    decoded 0x51 0x23 = some (.seReg 1 2 3) ∧ decoded 0x9E 0xD4 = some (.sneReg 14 13 4) := by decide

/-- W10 among them. -/
theorem test_decode_immediates :
    decoded 0x63 0x05 = some (.ldImm 3 0x05) ∧ decoded 0x7F 0x01 = some (.addImm 15 0x01) ∧
    decoded 0xC8 0x9A = some (.rnd 8 0x9A) ∧ decoded 0xA3 0x45 = some (.ldI 0x345) := by decide

theorem test_decode_group8_logic :
    decoded 0x81 0x20 = some (.ldReg 1 2) ∧ decoded 0x83 0x41 = some (.orReg 3 4) ∧
    decoded 0x85 0x62 = some (.andReg 5 6) ∧ decoded 0x87 0x83 = some (.xorReg 7 8) := by decide

theorem test_decode_group8_arithmetic :
    decoded 0x89 0xA4 = some (.addReg 9 10) ∧ decoded 0x8B 0xC5 = some (.sub 11 12) ∧
    decoded 0x8D 0xE6 = some (.shr 13 0xE) ∧ decoded 0x8F 0x07 = some (.subn 15 0) ∧
    decoded 0x81 0x2E = some (.shl 1 2) := by decide

/-- W10. -/
theorem test_decode_draw : decoded 0xD1 0x25 = some (.drw 1 2 5) ∧ decoded 0xDF 0xEF = some (.drw 15 14 15) := by decide

theorem test_decode_groupE : decoded 0xE1 0x9E = some (.skp 1) ∧ decoded 0xE2 0xA1 = some (.sknp 2) := by decide

theorem test_decode_groupF :
    decoded 0xF1 0x07 = some (.ldVxDT 1) ∧ decoded 0xF2 0x0A = some (.ldVxK 2) ∧
    decoded 0xF3 0x15 = some (.ldDTVx 3) ∧ decoded 0xF4 0x18 = some (.ldSTVx 4) ∧
    decoded 0xF5 0x1E = some (.addI 5) ∧ decoded 0xF6 0x29 = some (.ldF 6) ∧ decoded 0xF7 0x33 = some (.ldB 7) ∧
    decoded 0xF8 0x55 = some (.storeRegs 8) ∧ decoded 0xF9 0x65 = some (.loadRegs 9) := by decide

/-- W9, F7, F10, F12: a word of each illegal group, and too few bytes. -/
theorem test_decode_rejects :
    decode [0x01, 0x23] = .error (.group0 0x23) ∧ decode [0x80, 0x08] = .error (.group8 8) ∧
    decode [0xE0, 0x9F] = .error (.groupE 0x9F) ∧ decode [0xF0, 0xFF] = .error (.groupF 0xFF) ∧
    decode [0x63] = .error .truncated := by decide

theorem test_encode_and_table_view :
    encode (.drw 1 2 5) = 0xD125 ∧ encode (.sub 15 0) = 0x8F05 ∧ decodeTableWord 16 0x6305 = some (.ldImm 3 0x05) ∧
    decodeTableWord 16 0x8008 = none := by decide

/-! ## The step -/

/-- F1: the fetch at 0xFFE is inside memory. -/
theorem test_fetch_last_word :
    after (step (givenAt 0xFFE 0x6005)) (fun t => (t.getV 0, t.pc, t.halted)) = some (0x05, 0x1000, none) := by decide

/-- F2. -/
theorem test_fetch_at_fff : after (step (State.reset.setPc 0xFFF)) State.halted = some (some (.fetchBounds 0xFFF)) := by
  decide

/-- F8. -/
theorem test_decode_error_record :
    after (step (given 0x800F)) (fun t => (t.halted, t.pc)) = some (some (.decodeError 0x200 0x800F), 0x200) := by decide

/-- F13: the record is answered again. -/
theorem test_halted_block : step (State.reset.halt (.decodeError 0x200 0x8008)) = .fault (.decodeError 0x200 0x8008) := rfl

/-! ## Control flow -/

/-- F5. -/
theorem test_nop : after (step (given 0x0000)) State.pc = some 0x202 := by decide

/-- C2. -/
theorem test_jp_self : step (given 0x1200) = .next (given 0x1200) := rfl

/-- C4. -/
theorem test_call_last_entry :
    after (step (withStack (given 0x2300) 15 0)) (fun t => (t.pc, t.stack[15], t.stack[14], t.sp)) =
      some (0x300, 0x200, 0, 16) := by decide

/-- C5. -/
theorem test_call_overflow :
    after (step (withStack (given 0x2300) 16 0)) (fun t => (t.halted, t.pc, t.sp)) =
      some (some (.stackOverflow 0x200 0x2300), 0x200, 16) := by decide

/-- C6; the entry stays (R32). -/
theorem test_ret :
    after (step (withStack (given 0x00EE) 1 0x204)) (fun t => (t.pc, t.sp, t.stack[0])) = some (0x206, 0, 0x204) := by
  decide

/-- C7. -/
theorem test_ret_underflow :
    after (step (given 0x00EE)) (fun t => (t.halted, t.pc)) = some (some (.stackUnderflow 0x200 0x00EE), 0x200) := by
  decide

/-- C10. -/
theorem test_seImm_not_taken : after (step ((given 0x3005).setV 0 6)) State.pc = some 0x202 := by decide

/-- C19: a skip taken to the end of memory is no fault. -/
theorem test_seImm_taken : after (step (givenAt 0xFFC 0x3000)) (fun t => (t.pc, t.halted)) = some (0x1000, none) := by
  decide

/-- C11. -/
theorem test_sneImm_not_taken : after (step ((given 0x4005).setV 0 5)) State.pc = some 0x202 := by decide

/-- C12. -/
theorem test_sneImm_taken : after (step ((given 0x4005).setV 0 6)) State.pc = some 0x204 := by decide

/-- C14. -/
theorem test_seReg_not_taken : after (step (((given 0x5010).setV 0 1).setV 1 2)) State.pc = some 0x202 := by decide

/-- C15. -/
theorem test_seReg_taken : after (step (((given 0x5013).setV 0 1).setV 1 1)) State.pc = some 0x204 := by decide

/-- C16. -/
theorem test_sneReg_not_taken : after (step (((given 0x9010).setV 0 1).setV 1 1)) State.pc = some 0x202 := by decide

/-- C18. -/
theorem test_sneReg_taken : after (step (((given 0x9013).setV 0 1).setV 1 2)) State.pc = some 0x204 := by decide

/-- C21. -/
theorem test_jpV0_exact : after (step ((given 0xBFFF).setV 0 0xFF)) State.pc = some 0x10FE := by decide

/-! ## Arithmetic and logic -/

/-- A1. -/
theorem test_ldImm : after (step (given 0x6A7B)) (fun t => (t.getV 10, t.pc)) = some (0x7B, 0x202) := by decide

/-- A2. -/
theorem test_addImm_wraps :
    after (step (((given 0x70FF).setV 0 2).setV 15 0x77)) (fun t => (t.getV 0, t.getV 15)) = some (0x01, 0x77) := by
  decide

/-- A3. -/
theorem test_addImm_into_vf : after (step ((given 0x7F01).setV 15 0xFF)) (fun t => t.getV 15) = some 0x00 := by decide

/-- A4. -/
theorem test_ldReg : after (step ((given 0x8010).setV 1 0x42)) (fun t => (t.getV 0, t.getV 1)) = some (0x42, 0x42) := by
  decide

/-- A5. -/
theorem test_orReg : after (step (((given 0x8011).setV 0 0xF0).setV 1 0x0F)) (fun t => t.getV 0) = some 0xFF := by decide

/-- A6. -/
theorem test_andReg : after (step (((given 0x8012).setV 0 0xF0).setV 1 0x3C)) (fun t => t.getV 0) = some 0x30 := by decide

/-- A7. -/
theorem test_xorReg : after (step (((given 0x8013).setV 0 0xFF).setV 1 0x0F)) (fun t => t.getV 0) = some 0xF0 := by decide

/-- W3. -/
theorem test_addReg_carry :
    after (step (((given 0x8014).setV 0 0xFF).setV 1 0x01)) (fun t => (t.getV 0, t.getV 15)) = some (0x00, 0x01) := by
  decide

/-- A9: the flag is written after the result. -/
theorem test_addReg_into_vf : after (step ((given 0x8FF4).setV 15 0xFF)) (fun t => t.getV 15) = some 0x01 := by decide

/-- W4. -/
theorem test_sub_borrow :
    after (step (((given 0x8015).setV 0 3).setV 1 5)) (fun t => (t.getV 0, t.getV 15)) = some (0xFE, 0x00) := by decide

/-- A10. -/
theorem test_sub_equal :
    after (step (((given 0x8015).setV 0 7).setV 1 7)) (fun t => (t.getV 0, t.getV 15)) = some (0x00, 0x00) := by decide

/-- A16. -/
theorem test_shr_ignores_y :
    after (step (((given 0x8016).setV 0 4).setV 1 0xFF)) (fun t => (t.getV 0, t.getV 1, t.getV 15)) =
      some (0x02, 0xFF, 0x00) := by decide

/-- A17. -/
theorem test_shr_vf : after (step ((given 0x8F06).setV 15 3)) (fun t => t.getV 15) = some 0x01 := by decide

/-- A12. -/
theorem test_subn :
    after (step (((given 0x8017).setV 0 3).setV 1 5)) (fun t => (t.getV 0, t.getV 15)) = some (0x02, 0x01) := by decide

/-- A13. -/
theorem test_subn_borrow :
    after (step (((given 0x8017).setV 0 5).setV 1 3)) (fun t => (t.getV 0, t.getV 15)) = some (0xFE, 0x00) := by decide

/-- A18. -/
theorem test_shl : after (step ((given 0x800E).setV 0 0x81)) (fun t => (t.getV 0, t.getV 15)) = some (0x02, 0x01) := by
  decide

/-- A20. -/
theorem test_shl_vf : after (step ((given 0x8FFE).setV 15 0x80)) (fun t => t.getV 15) = some 0x01 := by decide

/-- A21, with the port's answer given. -/
theorem test_rnd_masks : (rndWith 0xAB 0 0x0F (given 0xC00F)).getV 0 = 0x0B := by decide

/-- R142: a step takes exactly one answer. -/
theorem test_rnd_step : after (step (given 0xC00F)) (fun t => (t.pc, t.draws)) = some (0x202, 1) := by decide

/-! ## Address register and memory -/

/-- I1. -/
theorem test_ldI : after (step (given 0xA123)) State.I = some 0x123 := by decide

/-- I3. -/
theorem test_addI_wraps :
    after (step (((given 0xF01E).setI 0xFFF0).setV 0 0x20)) (fun t => (t.I, t.getV 15)) = some (0x0010, 0x00) := by decide

/-- I5. -/
theorem test_ldF : after (step ((given 0xF029).setV 0 0x0F)) State.I = some 0x04B := by decide

/-- I7: the digit is not masked. -/
theorem test_ldF_not_masked : after (step ((given 0xF029).setV 0 0xFF)) State.I = some 0x4FB := by decide

/-- I13. -/
theorem test_ldB_top_of_memory :
    after (step (((given 0xF033).setI 0xFFD).setV 0 0xFF)) (fun t => (t.mem.readBytes 0xFFD 3, t.I, t.pc)) =
      some ([2, 5, 5], 0xFFD, 0x202) := by decide

/-- I14. -/
theorem test_ldB_faults_whole :
    after (step (((given 0xF033).setI 0xFFE).setV 0 0xFF)) (fun t => (t.halted, t.mem.readBytes 0xFFE 2)) =
      some (some (.dataBounds 0x200 0xF033 0x1000), [0, 0]) := by decide

/-- I17. -/
theorem test_storeRegs_all :
    after (step (((given 0xFF55).setI 0xFF0).setRegs countingRegs)) (fun t => (t.mem.readBytes 0xFEF 17, t.I)) =
      some ([0, 0, 1, 2, 3, 4, 5, 6, 7, 8, 9, 10, 11, 12, 13, 14, 15], 0xFF0) := by decide

/-- I18. -/
theorem test_storeRegs_faults_whole :
    after (step (((given 0xFF55).setI 0xFF1).setRegs countingRegs)) (fun t => (t.halted, t.mem.read 0xFF2)) =
      some (some (.dataBounds 0x200 0xFF55 0x1000), 0) := by decide

/-- I19. -/
theorem test_loadRegs :
    after (step (withBytes (((given 0xF265).setI 0x300).setV 3 0x33) 0x300 [9, 8, 7]))
      (fun t => (t.getV 0, t.getV 1, t.getV 2, t.getV 3, t.I)) = some (9, 8, 7, 0x33, 0x300) := by decide

/-- I21. -/
theorem test_loadRegs_faults :
    after (step ((given 0xF065).setI 0x1000)) State.halted = some (some (.dataBounds 0x200 0xF065 0x1000)) := by decide

/-! ## Display -/

/-- W1: the toggled pixel, and no other of the three. -/
theorem test_toggle_wraps :
    ((State.reset.fb.togglePixel 70 40).getPixel 6 8, (State.reset.fb.togglePixel 70 40).getPixel 8 6,
      (State.reset.fb.togglePixel 255 255).getPixel 63 31) = (true, false, true) := by decide

/-- D1 and F6. -/
theorem test_cls : after (step (withPixels (given 0x05E0) [(5, 5)])) (fun t => (t.fb, t.pc)) =
    some (State.reset.fb, 0x202) := by decide

/-- D3: wrapping on both axes; the screen is exactly those three pixels. -/
theorem test_drw_wraps :
    after (step (withBytes ((((given 0xD012).setV 0 0xFF).setV 1 0xFF).setI 0x300) 0x300 [0xC0, 0x80]))
      (fun t => (t.fb, t.getV 15)) = some ((withPixels State.reset [(63, 31), (0, 31), (63, 0)]).fb, 0x00) := by decide

/-- D7: a collision; the flag register and the screen. -/
theorem test_drw_collides :
    after (step (withBytes ((withPixels ((given 0xD011).setV 0 4) [(4, 0), (5, 0), (6, 0), (7, 0)]).setI 0x300)
      0x300 [0xFF])) (fun t => (t.fb, t.getV 15)) =
      some ((withPixels State.reset [(8, 0), (9, 0), (10, 0), (11, 0)]).fb, 0x01) := by decide

/-! ## Ports -/

/-- P10: the port is asked about the whole byte. -/
theorem test_skp :
    after (exec (.skp 0) ((given 0xE09E).setV 0 0x1F)) State.pc =
      some (0x200 + if Config.keyDown 0 0x1F then 4 else 2) := rfl

/-- P3, P4. -/
theorem test_sknp :
    after (exec (.sknp 0) (given 0xE0A1)) State.pc = some (0x200 + if !Config.keyDown 0 0x00 then 4 else 2) := rfl

/-- P5. -/
theorem test_ldVxK_none :
    ((ldKWith none 3 ((given 0xF30A).setV 3 0x44)).getV 3, (ldKWith none 3 (given 0xF30A)).pc) = (0x44, 0x200) := by decide

/-- P6. -/
theorem test_ldVxK_key :
    ((ldKWith (some 7) 3 (given 0xF30A)).getV 3, (ldKWith (some 7) 3 (given 0xF30A)).pc) = (0x07, 0x202) := by decide

/-- P7. -/
theorem test_ldVxDT :
    ((ldDTWith 0x3C 4 (given 0xF407)).getV 4, (ldDTWith 0x3C 4 (given 0xF407)).pc) = (0x3C, 0x202) := by decide

/-- P8. -/
theorem test_ldDTVx :
    after (step ((given 0xF515).setV 5 0x20)) (fun t => (t.events, t.pc)) = some ([.dtWrite 0x20], 0x202) := by decide

/-- P9. -/
theorem test_ldSTVx :
    after (step ((given 0xF518).setV 5 0x20)) (fun t => (t.events, t.pc)) = some ([.stWrite 0x20], 0x202) := by decide

/-! ## Witnesses: a state and operands that meet the hypotheses of each statement -/

theorem witness_DecodeEncodeAgree : ∃ i : Instr, i.wellFormed = true := ⟨.drw 15 15 15, by decide⟩

theorem witness_AcceptedBytesAreTheEncoding : decode [0xDF, 0xFF, 0x12] = .ok (.drw 15 15 15, [0x12]) := by decide

/-- A word of each clause, and the words beside them that are instructions. -/
theorem witness_IllegalWordsExactly :
    (decodeWord 0x00E1).toOption = none ∧ (decodeWord 0x00E0).toOption = some (.cls 0) ∧
    (decodeWord 0x800D).toOption = none ∧ (decodeWord 0x800E).toOption = some (.shl 0 0) ∧
    (decodeWord 0xE0A0).toOption = none ∧ (decodeWord 0xE0A1).toOption = some (.sknp 0) ∧
    (decodeWord 0xF064).toOption = none ∧ (decodeWord 0xF065).toOption = some (.loadRegs 0) := by decide

theorem witness_StepRunsTheDecodedInstruction : ∃ s : State, ∃ i : Instr, s.halted = none ∧ s.pc.toNat + 1 = 4095 ∧
    decode [s.mem.read s.pc.toNat, s.mem.read (s.pc.toNat + 1)] = .ok (i, []) :=
  ⟨givenAt 0xFFE 0x6005, .ldImm 0 5, by decide⟩

theorem witness_FetchReadsTwoBytesOrFaults :
    (∃ s : State, s.pc.toNat + 1 = 4095) ∧ ∃ s : State, s.halted = none ∧ 4096 = s.pc.toNat + 1 :=
  ⟨⟨State.reset.setPc 0xFFE, by decide⟩, State.reset.setPc 0xFFF, by decide⟩

theorem witness_UnknownWordIsADecodeError : ∃ s : State, ∃ w : Word, ∃ e : Reject,
    s.halted = none ∧ s.fetch = some w ∧ decodeWord w = .error e :=
  ⟨given 0x0123, 0x0123, .group0 0x23, by decide⟩

/-- A step without a fault, a step that faults first, and a halted block. -/
theorem witness_HaltedBlockAnswersItsRecord :
    (∃ s t : State, step s = .next t ∧ t.halted = none) ∧
    (∃ s t : State, step s = .next t ∧ t.halted = some (.decodeError 0x200 0x8008)) ∧
    ∃ s : State, ∃ f : Fault, s.halted = some f :=
  ⟨⟨given 0x0000, _, rfl, rfl⟩, ⟨given 0x8008, _, rfl, rfl⟩, State.reset.halt (.fetchBounds 0xFFF), _, rfl⟩

theorem witness_FaultingStepWritesOnlyTheRecord : ∃ s t : State, step s = .next t ∧ t.halted ≠ none :=
  ⟨given 0x8008, (given 0x8008).halt (.decodeError 0x200 0x8008), rfl, by decide⟩

/-- Each kind of fault that a step raises. -/
theorem witness_FaultRecordIsTrue :
    (after (step (given 0x0123)) State.halted = some (some (.decodeError 0x200 0x0123))) ∧
    (after (step (State.reset.setPc 0x10FE)) State.halted = some (some (.fetchBounds 0x10FE))) ∧
    (after (step (withStack (given 0x2200) 16 0x200)) State.halted = some (some (.stackOverflow 0x200 0x2200))) ∧
    (after (step (given 0x05EE)) State.halted = some (some (.stackUnderflow 0x200 0x05EE))) ∧
    (after (step ((given 0xD015).setI 0xFFE)) State.halted = some (some (.dataBounds 0x200 0xD015 0x1000))) := by decide

theorem witness_OtherInstructionsNeverFault : ∃ i : Instr, ∃ s t : State, exec i s = .next t ∧
    (∀ nnn, i ≠ .call nnn) ∧ (∀ ign, i ≠ .ret ign) ∧ (∀ x y n, i ≠ .drw x y n) ∧ (∀ x, i ≠ .ldB x) ∧
    (∀ x, i ≠ .storeRegs x) ∧ (∀ x, i ≠ .loadRegs x) :=
  ⟨.addReg 1 2, State.reset, _, rfl, nofun, nofun, nofun, nofun, nofun, nofun⟩

/-- One of each class. -/
theorem witness_PcAdvancesByClass :
    (∃ i : Instr, ∃ t : State, exec i State.reset = .next t ∧ t.halted = none ∧ i.advanceClass = .sequential) ∧
    (∃ i : Instr, ∃ t : State, exec i State.reset = .next t ∧ t.halted = none ∧ i.advanceClass = .skip) ∧
    ∃ i : Instr, ∃ t : State, exec i State.reset = .next t ∧ t.halted = none ∧ i.advanceClass = .wait :=
  ⟨⟨.loadRegs 15, _, rfl, rfl, rfl⟩, ⟨.seImm 0 0, _, rfl, rfl, rfl⟩,
    ⟨.ldVxK 0, _, rfl, by unfold ldKWith; split <;> rfl, rfl⟩⟩

theorem witness_OnlyDestinationRegistersChange : ∃ i : Instr, ∃ s t : State, ∃ r : Reg,
    exec i s = .next t ∧ i.mayWriteReg r = false :=
  ⟨.loadRegs 14, State.reset, _, 15, rfl, rfl⟩

theorem witness_OnlyStoresChangeMemory : ∃ i : Instr, ∃ s t : State,
    exec i s = .next t ∧ (∀ x, i ≠ .ldB x) ∧ (∀ x, i ≠ .storeRegs x) :=
  ⟨.loadRegs 15, State.reset, _, rfl, nofun, nofun⟩

theorem witness_NoOtherInstructionTouchesMemory : ∃ i : Instr, ∃ s t : State, exec i s = .next t ∧
    (∀ x y n, i ≠ .drw x y n) ∧ (∀ x, i ≠ .ldB x) ∧ (∀ x, i ≠ .storeRegs x) ∧ (∀ x, i ≠ .loadRegs x) :=
  ⟨.skp 0, State.reset, _, rfl, nofun, nofun, nofun, nofun⟩

theorem witness_OnlyAddressInstructionsChangeI : ∃ i : Instr, ∃ s t : State,
    exec i s = .next t ∧ (∀ nnn, i ≠ .ldI nnn) ∧ (∀ x, i ≠ .addI x) ∧ (∀ x, i ≠ .ldF x) :=
  ⟨.storeRegs 15, State.reset, _, rfl, nofun, nofun, nofun⟩

/-- RET for the last clause, a store for the first. -/
theorem witness_OnlyCallAndRetReachTheStack :
    (∃ s t : State, exec (.ret 0) s = .next t ∧ t.halted = none ∧ ∀ nnn, Instr.ret 0 ≠ .call nnn) ∧
    ∃ s t : State, exec (.storeRegs 3) s = .next t ∧ (∀ nnn, Instr.storeRegs 3 ≠ .call nnn) ∧
      ∀ ign, Instr.storeRegs 3 ≠ .ret ign :=
  ⟨⟨withStack State.reset 16 0x300, _, rfl, rfl, nofun⟩, State.reset, _, rfl, nofun, nofun⟩

theorem witness_OnlyDrawAndClearChangeTheScreen : ∃ i : Instr, ∃ s t : State,
    exec i s = .next t ∧ (∀ ign, i ≠ .cls ign) ∧ (∀ x y n, i ≠ .drw x y n) :=
  ⟨.ldF 0, State.reset, _, rfl, nofun, nofun⟩

/-- One instruction of each of the three clauses. -/
theorem witness_OnlyPortInstructionsUsePorts : ∃ t u v : State, exec (.rnd 0 0xFF) State.reset = .next t ∧
    exec (.ldSTVx 0) State.reset = .next u ∧ exec (.nop 0) State.reset = .next v :=
  ⟨_, _, _, rfl, rfl, rfl⟩

theorem witness_IgnoredNibblesDoNothing : ∃ s : State, s.sp ≠ 0 := ⟨withStack State.reset 1 0x204, by decide⟩

theorem witness_JumpReplacesPc :
    (∃ nnn : Addr12, ∃ s : State, s.pc = nnn.setWidth 16) ∧ ∃ nnn : Addr12, ∃ s : State, nnn = 0xFFF#12 ∧ s.halted = none :=
  ⟨⟨0x200, State.reset, by decide⟩, 0xFFF, State.reset, rfl, rfl⟩

theorem witness_CallPushesItsOwnAddress :
    (∃ s : State, s.sp.val = 15 ∧ s.sp.val < 16) ∧ ∃ s : State, s.sp = 16 :=
  ⟨⟨withStack State.reset 15 0, by decide⟩, withStack State.reset 16 0, by decide⟩

theorem witness_ReturnOnEmptyStackFaults : ∃ s : State, s.sp = 0 := ⟨State.reset, by decide⟩

theorem witness_ReturnPopsAndResumes :
    (∃ s : State, s.sp.val = 15 + 1) ∧ ∃ s : State, s.sp.val = 0 + 1 :=
  ⟨⟨withStack State.reset 16 0, by decide⟩, withStack State.reset 1 0, by decide⟩

theorem witness_CallThenReturnComesBack : ∃ s : State, s.sp.val < 16 := ⟨withStack State.reset 15 0, by decide⟩

/-- For the clauses of AddSetsCarry, SubtractionsSetNoBorrow and ShiftsKeepTheBitShiftedOut about `x` and the other
registers. -/
theorem witness_flag_writers : ∃ x r : Reg, x ≠ 15 ∧ r ≠ x ∧ r ≠ 15 := ⟨14, 0, by decide⟩

theorem witness_DecimalDigitsAreStored : ∃ s : State, s.I.toNat + 2 = 4095 := ⟨State.reset.setI 0xFFD, by decide⟩

/-- For RegistersAreStored and RegistersAreLoaded. -/
theorem witness_register_transfers : ∃ s : State, ∃ x : Reg, s.I.toNat + x.val = 4095 :=
  ⟨State.reset.setI 0xFF0, 15, by decide⟩

theorem witness_DataAccessOutsideMemoryFaults :
    (∃ s : State, 4096 = s.I.toNat + 2) ∧ (∃ s : State, ∃ x : Reg, 4096 = s.I.toNat + x.val ∧ x = 15) ∧
    ∃ s : State, ∃ x : Reg, 4096 = s.I.toNat + x.val ∧ x = 0 :=
  ⟨⟨State.reset.setI 0xFFE, by decide⟩, ⟨State.reset.setI 0xFF1, 15, by decide⟩, State.reset.setI 0x1000, 0, by decide⟩

theorem witness_StoredBytesAreFetched :
    (∃ (x : Reg) (s t : State) (k : Reg) (p : Word),
      exec (.storeRegs x) s = .next t ∧ s.I.toNat + x.val = 4095 ∧ k.val + 1 ≤ x.val ∧ p.toNat = s.I.toNat + k.val) ∧
    ∃ (s t : State) (p q : Word),
      exec (.ldB 0) s = .next t ∧ s.I.toNat + 2 = 4095 ∧ p.toNat = s.I.toNat ∧ q.toNat = s.I.toNat + 1 :=
  ⟨⟨1, State.reset.setI 0xFFE, _, 0, 0xFFE, rfl, by decide⟩,
    (State.reset.setI 0xFFD).setV 0 0xFF, _, 0xFFD, 0xFFE, rfl, by decide⟩

theorem witness_TogglesFlipOnePixel : ∃ c r x y : Nat, c < 64 ∧ r < 32 ∧ c = x % 64 ∧ r = y % 32 :=
  ⟨63, 31, 255, 255, by decide⟩

theorem witness_RenderListsThePixels : ∃ fb : Framebuffer, ∃ row, fb.render[31]? = some row ∧ row.length = 64 :=
  ⟨Framebuffer.clear, _, rfl, by decide⟩

theorem witness_DrawFlipsTheSpritesPixels :
    (∃ (n : Nat) (s : State), n = 15 ∧ s.I.toNat + n = 4096) ∧ ∃ (n : Nat) (s : State), n = 0 ∧ 4096 < s.I.toNat :=
  ⟨⟨15, State.reset.setI 0xFF1, by decide⟩, 0, State.reset.setI 0x2000, by decide⟩

/-- W8 for the first clause, D5 and the first address outside memory for the second. -/
theorem witness_DrawFaultsBeforeDrawing :
    (∃ n : Nat, 15 < n ∧ n = 16) ∧ (∃ (n : Nat) (s : State), n = 1 ∧ 4096 < s.I.toNat + n) ∧
    ∃ (n : Nat) (s : State), 0 < n ∧ n ≤ 15 ∧ s.I.toNat + n = 4097 :=
  ⟨⟨16, by decide⟩, ⟨1, State.reset.setI 0x1000, by decide⟩, 15, State.reset.setI 0xFF2, by decide⟩

theorem witness_ResetState : ∃ a b : Nat, 0x050 ≤ a ∧ a < 4096 ∧ a = 0x050 ∧ 0x050 ≤ b ∧ b < 4096 ∧ b = 4095 :=
  ⟨0x050, 4095, by decide⟩

theorem witness_CanonicalMemoriesAreEqual : ∃ m m' : Memory, m.wf = true ∧ m'.wf = true ∧
    (∀ a, m.read a = m'.read a) ∧ m ≠ [] :=
  ⟨(Memory.write [] 0x300 1).write 0x200 2, (Memory.write [] 0x200 2).write 0x300 1, by decide, by decide,
    fun _ => rfl, by decide⟩

theorem witness_LoaderPlacesTheProgram :
    (∃ s : State, s.halted = none) ∧ (∃ a : Nat, a < 4096 ∧ a = 4095) ∧ (∃ a : Nat, 4096 ≤ a ∧ a = 4096) ∧
    (∃ image : List Byte, image.length = 0xDFF) ∧ ∃ image : List Byte, image.length = 0xDFF + 1 :=
  ⟨⟨State.reset, rfl⟩, ⟨4095, by decide⟩, ⟨4096, by decide⟩, ⟨List.replicate 0xDFF 1, List.length_replicate⟩,
    List.replicate 0xE00 1, List.length_replicate⟩

/-- A CALL from the reset state, which meets the invariant. -/
theorem witness_StepKeepsTheInvariant : ∃ s t : State, s.Inv ∧ step s = .next t ∧ t.sp = 1 ∧ t.halted = none :=
  ⟨given 0x2300, _, ⟨by decide, by decide, fun _ _ h => absurd h (Nat.not_lt_zero _)⟩, rfl, by decide⟩

/-- A program byte loaded, and then a step. -/
theorem witness_ReachableStatesMeetTheInvariant : ∃ s : State, Reachable s ∧ s.pc = 0x300 :=
  ⟨_, .step (s := State.reset.loadImage [0x13, 0x00]) (.boot (.loadImage _ .reset)) rfl, by decide⟩

end Sys2Proof.Tests
end

section
/-! The fields of an instruction word as numbers (30_encoding.md R72): one lemma per field, each the slice lemma at the
field's own bounds. -/

namespace Sys2Proof

/-- A slice as a number: the bits below it are divided away, those above it are reduced away. -/
theorem toNat_slice {a : Nat} (w : BitVec a) (k l : Nat) : (w.extractLsb' k l).toNat = w.toNat / 2 ^ k % 2 ^ l := by
  rw [BitVec.extractLsb'_toNat, Nat.shiftRight_eq_div_pow]

/-- A slice that starts at bit 0 is a remainder. -/
theorem toNat_slice_low {a : Nat} (w : BitVec a) (l : Nat) : (w.extractLsb' 0 l).toNat = w.toNat % 2 ^ l := by
  rw [toNat_slice, Nat.pow_zero, Nat.div_one]

/-- The top field needs no reduction, because a word is below `2 ^ 16`. -/
theorem toNat_fieldOp (w : Word) : (fieldOp w).toNat = w.toNat / 4096 := by
  have hquot : w.toNat / 4096 < 16 := Nat.div_lt_of_lt_mul w.isLt
  exact (toNat_slice w 12 4).trans (Nat.mod_eq_of_lt hquot)

theorem toNat_fieldX (w : Word) : (fieldX w).toNat = w.toNat / 256 % 16 := toNat_slice w 8 4

theorem toNat_fieldY (w : Word) : (fieldY w).toNat = w.toNat / 16 % 16 := toNat_slice w 4 4

theorem toNat_fieldN (w : Word) : (fieldN w).toNat = w.toNat % 16 := toNat_slice_low w 4

theorem toNat_fieldKK (w : Word) : (fieldKK w).toNat = w.toNat % 256 := toNat_slice_low w 8

theorem toNat_fieldNNN (w : Word) : (fieldNNN w).toNat = w.toNat % 4096 := toNat_slice_low w 12

/-- Settles O4, field by field. -/
theorem wordFieldsAreBitRanges : Obligations.WordFieldsAreBitRanges := fun w =>
  ⟨toNat_fieldOp w, toNat_fieldX w, toNat_fieldY w, toNat_fieldN w, toNat_fieldKK w, toNat_fieldNNN w⟩

end Sys2Proof
end

section
/-! The Display's toggle and its readout (43_display.md section 1): whole-bitmap laws of a toggle, each by comparing
pixels, and what `render` lists. -/

namespace Sys2Proof.Machine.Framebuffer

variable (fb : Framebuffer)

/-- A pixel on the screen is named by its own coordinates. -/
theorem samePixel_iff_of_lt {c r : Nat} (x y : Nat) (hc : c < 64) (hr : r < 32) :
    samePixel x y c r ↔ c = x % 64 ∧ r = y % 32 := by
  rw [samePixel, Nat.mod_eq_of_lt hc, Nat.mod_eq_of_lt hr, eq_comm (b := c), eq_comm (b := r)]

/-- 64 and 32 divide 256, so a coordinate may be reduced modulo 256 first (43_display.md R182). -/
theorem samePixel_mod_256 (x y : Nat) : samePixel (x % 256) (y % 256) x y :=
  ⟨Nat.mod_mod_of_dvd x (by decide), Nat.mod_mod_of_dvd y (by decide)⟩

theorem samePixel_mod (x y : Nat) : samePixel x y (x % 64) (y % 32) :=
  ⟨(Nat.mod_mod x 64).symm, (Nat.mod_mod y 32).symm⟩

theorem togglePixel_congr {x y x' y' : Nat} (h : samePixel x y x' y') : fb.togglePixel x y = fb.togglePixel x' y' := by
  refine ext_pixels fun c r _ _ => ?_
  simp only [getPixel_togglePixel, samePixel, h.1, h.2]

@[simp] theorem togglePixel_togglePixel (x y : Nat) : (fb.togglePixel x y).togglePixel x y = fb := by
  refine ext_pixels fun c r _ _ => ?_
  rw [getPixel_togglePixel, getPixel_togglePixel, Bool.xor_assoc, Bool.xor_self, Bool.xor_false]

/-- A toggle seen from a pixel on the screen. -/
theorem getPixel_togglePixel_of_lt {c r : Nat} (x y : Nat) (hc : c < 64) (hr : r < 32) :
    (fb.togglePixel x y).getPixel c r =
      if c = x % 64 ∧ r = y % 32 then !fb.getPixel c r else fb.getPixel c r := by
  rw [getPixel_togglePixel, decide_eq_decide.2 (samePixel_iff_of_lt x y hc hr)]
  split
  case isTrue h => rw [decide_eq_true h, Bool.xor_true]
  case isFalse h => rw [decide_eq_false h, Bool.xor_false]

/-- Settles O46: the pixels after a toggle decide all of it. -/
theorem togglesFlipOnePixel : Obligations.TogglesFlipOnePixel := fun fb x y =>
  ⟨fun _ _ hc hr => fb.getPixel_togglePixel_of_lt x y hc hr, fb.togglePixel_congr (samePixel_mod_256 x y),
    fb.togglePixel_togglePixel x y, getPixel_clear x y⟩

@[simp] theorem length_render : fb.render.length = 32 := by
  rw [render, List.length_map, List.length_range]

/-- The rows `render` lists, by their numbers from the top (43_display.md R184). -/
theorem getElem?_render_eq_some {r : Nat} {row : List Bool} :
    fb.render[r]? = some row ↔ r < 32 ∧ (List.range 64).map (fb.getPixel · r) = row := by
  simp only [render, List.getElem?_eq_some_iff, List.length_map, List.length_range, List.getElem_map,
    List.getElem_range, exists_prop]

/-- Settles O48, from the rows that `render` lists. -/
theorem renderListsThePixels : Obligations.RenderListsThePixels := by
  refine fun fb => ⟨fb.length_render, fun r row hrow => ?_, fun x y => fb.getPixel_wrap (samePixel_mod x y)⟩
  obtain ⟨_, rfl⟩ := fb.getElem?_render_eq_some.1 hrow
  refine ⟨by rw [List.length_map, List.length_range], fun c hc => ?_⟩
  rw [List.getElem?_map, List.getElem?_range hc, Option.map_some]

end Sys2Proof.Machine.Framebuffer
end

section
/-! The decoder and the encoder undo each other on the instructions a word can hold (30_encoding.md sections 1 to 3),
and which words the decoder rejects (section 4). The four groups that dispatch on a selector have a lemma each. -/

namespace Sys2Proof

/-! ## The word of a decoded instruction -/

/-- A word holds an instruction: the instruction fits one word, and it is this one. -/
structure Instr.HeldBy (i : Instr) (w : Word) : Prop where
  wellFormed : i.wellFormed = true
  encode_eq : encode i = w

theorem Instr.HeldBy.ofNNN {i : Instr} {w : Word} {op : Nibble} (hop : fieldOp w = op) (hwf : i.wellFormed = true)
    (henc : encode i = wordNNN op (fieldNNN w)) : i.HeldBy w :=
  ⟨hwf, by rw [henc, ← hop, wordNNN_fields]⟩

theorem Instr.HeldBy.ofXKK {i : Instr} {w : Word} {op : Nibble} {kk : Byte} (hop : fieldOp w = op)
    (hkk : fieldKK w = kk) (hwf : i.wellFormed = true) (henc : encode i = wordXKK op (fieldX w) kk) : i.HeldBy w :=
  ⟨hwf, by rw [henc, ← hop, ← hkk, wordXKK_fields]⟩

theorem Instr.HeldBy.ofXYN {i : Instr} {w : Word} {op n : Nibble} (hop : fieldOp w = op) (hn : fieldN w = n)
    (hwf : i.wellFormed = true) (henc : encode i = wordXYN op (fieldX w) (fieldY w) n) : i.HeldBy w :=
  ⟨hwf, by rw [henc, ← hop, ← hn, wordXYN_fields]⟩

theorem heldBy_of_decodeGroup0 {w : Word} {i : Instr} (hop : fieldOp w = 0x0#4) (h : decodeGroup0 w = .ok i) :
    i.HeldBy w := by
  unfold decodeGroup0 at h
  split_ifs at h <;> cases h <;> exact .ofXKK hop ‹_› rfl rfl

theorem heldBy_of_decodeGroup8 {w : Word} {i : Instr} (hop : fieldOp w = 0x8#4) (h : decodeGroup8 w = .ok i) :
    i.HeldBy w := by
  unfold decodeGroup8 at h
  split_ifs at h <;> cases h <;> exact .ofXYN hop ‹_› rfl (by simp only [encode, regBits_regOf])

theorem heldBy_of_decodeGroupE {w : Word} {i : Instr} (hop : fieldOp w = 0xE#4) (h : decodeGroupE w = .ok i) :
    i.HeldBy w := by
  unfold decodeGroupE at h
  split_ifs at h <;> cases h <;> exact .ofXKK hop ‹_› rfl (by simp only [encode, regBits_regOf])

theorem heldBy_of_decodeGroupF {w : Word} {i : Instr} (hop : fieldOp w = 0xF#4) (h : decodeGroupF w = .ok i) :
    i.HeldBy w := by
  unfold decodeGroupF at h
  split_ifs at h <;> cases h <;> exact .ofXKK hop ‹_› rfl (by simp only [encode, regBits_regOf])

/-- An accepted word holds the instruction it decodes to: the encoder puts every field back where the decoder read it.
One case for each group. -/
theorem heldBy_of_decodeWord {w : Word} {i : Instr} (h : decodeWord w = .ok i) : i.HeldBy w := by
  rcases op_cases (fieldOp w) with
    hop | hop | hop | hop | hop | hop | hop | hop | hop | hop | hop | hop | hop | hop | hop | hop <;>
    simp only [decodeWord, hop, BitVec.reduceEq, reduceIte] at h
  · exact heldBy_of_decodeGroup0 hop h
  · cases h; exact .ofNNN hop rfl rfl
  · cases h; exact .ofNNN hop rfl rfl
  · cases h; exact .ofXKK hop rfl rfl (by rw [encode, regBits_regOf])
  · cases h; exact .ofXKK hop rfl rfl (by rw [encode, regBits_regOf])
  · cases h; exact .ofXYN hop rfl rfl (by rw [encode, regBits_regOf, regBits_regOf])
  · cases h; exact .ofXKK hop rfl rfl (by rw [encode, regBits_regOf])
  · cases h; exact .ofXKK hop rfl rfl (by rw [encode, regBits_regOf])
  · exact heldBy_of_decodeGroup8 hop h
  · cases h; exact .ofXYN hop rfl rfl (by rw [encode, regBits_regOf, regBits_regOf])
  · cases h; exact .ofNNN hop rfl rfl
  · cases h; exact .ofNNN hop rfl rfl
  · cases h; exact .ofXKK hop rfl rfl (by rw [encode, regBits_regOf])
  · cases h
    exact .ofXYN hop rfl (decide_eq_true (Nat.le_of_lt_succ (fieldN w).isLt))
      (by rw [encode, regBits_regOf, regBits_regOf, BitVec.ofNat_toNat, BitVec.setWidth_eq])
  · exact heldBy_of_decodeGroupE hop h
  · exact heldBy_of_decodeGroupF hop h

/-! ## Decoding an encoding -/

theorem decodeWord_encode {i : Instr} (h : i.wellFormed = true) : decodeWord (encode i) = .ok i := by
  cases i with
  | drw x y n =>
    have hn : n % 16 = n := Nat.mod_eq_of_lt (Nat.lt_succ_of_le (of_decide_eq_true h))
    simp [encode, decodeWord, hn]
  | nop _ | cls _ | ret _ => simp [encode, decodeWord, decodeGroup0]
  | skp _ | sknp _ => simp [encode, decodeWord, decodeGroupE]
  | ldVxDT _ | ldVxK _ | ldDTVx _ | ldSTVx _ | addI _ | ldF _ | ldB _ | storeRegs _ | loadRegs _ =>
    simp [encode, decodeWord, decodeGroupF]
  | ldReg _ _ | orReg _ _ | andReg _ _ | xorReg _ _ | addReg _ _ | sub _ _ | shr _ _ | subn _ _ | shl _ _ =>
    simp [encode, decodeWord, decodeGroup8]
  | _ => simp [encode, decodeWord]

theorem decode_cons_cons_eq_ok {hi lo : Byte} {rest more : List Byte} {i : Instr} :
    decode (hi :: lo :: rest) = .ok (i, more) ↔ decodeWord (wordOfBytes hi lo) = .ok i ∧ more = rest := by
  rw [decode]
  cases decodeWord (wordOfBytes hi lo) <;> simp [Except.map, eq_comm]

/-- Settles O1, from the word's round trip. -/
theorem decodeEncodeAgree : Obligations.DecodeEncodeAgree := fun i _ h =>
  decode_cons_cons_eq_ok.2 ⟨by rw [wordOfBytes_high_low, decodeWord_encode h], rfl⟩

/-- Settles O2: the accepted word holds the instruction, and its bytes are the bytes read. -/
theorem acceptedBytesAreTheEncoding : Obligations.AcceptedBytesAreTheEncoding := by
  intro hi lo rest more i h
  obtain ⟨hw, hmore⟩ := decode_cons_cons_eq_ok.1 h
  obtain ⟨hwf, henc⟩ := heldBy_of_decodeWord hw
  exact ⟨hmore, hwf, by rw [encodeBytes, henc, highByte_wordOfBytes, lowByte_wordOfBytes]⟩

/-! ## The rejected words -/

theorem exists_decodeGroup0_eq_error {w : Word} : (∃ e, decodeGroup0 w = .error e) ↔
    fieldKK w ≠ 0x00#8 ∧ fieldKK w ≠ 0xE0#8 ∧ fieldKK w ≠ 0xEE#8 := by
  unfold decodeGroup0
  split_ifs <;> simp [*]

theorem exists_decodeGroup8_eq_error {w : Word} : (∃ e, decodeGroup8 w = .error e) ↔
    (fieldN w = 0x8#4 ∨ fieldN w = 0x9#4 ∨ fieldN w = 0xA#4 ∨ fieldN w = 0xB#4 ∨ fieldN w = 0xC#4 ∨ fieldN w = 0xD#4 ∨
      fieldN w = 0xF#4) := by
  unfold decodeGroup8
  rcases op_cases (fieldN w) with
    h | h | h | h | h | h | h | h | h | h | h | h | h | h | h | h <;> simp [h]

theorem exists_decodeGroupE_eq_error {w : Word} : (∃ e, decodeGroupE w = .error e) ↔
    fieldKK w ≠ 0x9E#8 ∧ fieldKK w ≠ 0xA1#8 := by
  unfold decodeGroupE
  split_ifs <;> simp [*]

theorem exists_decodeGroupF_eq_error {w : Word} : (∃ e, decodeGroupF w = .error e) ↔
    fieldKK w ≠ 0x07#8 ∧ fieldKK w ≠ 0x0A#8 ∧ fieldKK w ≠ 0x15#8 ∧ fieldKK w ≠ 0x18#8 ∧ fieldKK w ≠ 0x1E#8 ∧
      fieldKK w ≠ 0x29#8 ∧ fieldKK w ≠ 0x33#8 ∧ fieldKK w ≠ 0x55#8 ∧ fieldKK w ≠ 0x65#8 := by
  unfold decodeGroupF
  split_ifs <;> simp [*]

/-- Settles O3: a group without a selector rejects nothing, and each of the other four has its row of the table. -/
theorem illegalWordsExactly : Obligations.IllegalWordsExactly := by
  intro w
  rw [← exists_decodeGroup0_eq_error, ← exists_decodeGroup8_eq_error, ← exists_decodeGroupE_eq_error,
    ← exists_decodeGroupF_eq_error]
  rcases op_cases (fieldOp w) with
    h | h | h | h | h | h | h | h | h | h | h | h | h | h | h | h <;> simp [decodeWord, h]

/-- Settles O5: each word is the encoding of its instruction. -/
theorem sampleWordsDecode : Obligations.SampleWordsDecode :=
  ⟨decodeWord_encode (i := .ldImm 3 0x05#8) rfl, decodeWord_encode (i := .drw 1 2 5) rfl,
    decodeWord_encode (i := .call 0x20A#12) rfl, decodeWord_encode (i := .sub 15 0) rfl,
    decodeWord_encode (i := .ldB 10) rfl, decodeWord_encode (i := .sknp 1) rfl⟩

end Sys2Proof
end

section
/-! What executing an instruction can do, said once: it raises a fault, with a known record, or it completes and leaves
`effect i s`. A field that an instruction does not write then needs a lemma about `effect` alone. -/

namespace Sys2Proof

/-- How many bytes at `I` an instruction reads or writes as data (20_memory.md R52). -/
def Instr.dataBytes : Instr → Nat
  | .drw _ _ n => n
  | .ldB _ => 3
  | .storeRegs x | .loadRegs x => x.val + 1
  | _ => 0

theorem Instr.dataBytes_pos {i : Instr} (h : 0 < i.dataBytes) : (∃ x y n, i = .drw x y n) ∨ (∃ x, i = .ldB x) ∨
    (∃ x, i = .storeRegs x) ∨ ∃ x, i = .loadRegs x := by
  cases i with
  | drw x y n => exact .inl ⟨x, y, n, rfl⟩
  | ldB x => exact .inr (.inl ⟨x, rfl⟩)
  | storeRegs x => exact .inr (.inr (.inl ⟨x, rfl⟩))
  | loadRegs x => exact .inr (.inr (.inr ⟨x, rfl⟩))
  | _ => exact absurd h (Nat.lt_irrefl 0)

end Sys2Proof

namespace Sys2Proof.Machine

@[simp] theorem State.getV_advance (s : State) (r : Reg) : s.advance.getV r = s.getV r := rfl

/-! ## LD Vx, K, whatever the port answers -/

section
variable (a : Option (Fin 16)) (x : Reg) (s : State)
@[simp] theorem ldKWith_mem : (ldKWith a x s).mem = s.mem := by cases a <;> rfl
@[simp] theorem ldKWith_I : (ldKWith a x s).I = s.I := by cases a <;> rfl
@[simp] theorem ldKWith_sp : (ldKWith a x s).sp = s.sp := by cases a <;> rfl
@[simp] theorem ldKWith_stack : (ldKWith a x s).stack = s.stack := by cases a <;> rfl
@[simp] theorem ldKWith_fb : (ldKWith a x s).fb = s.fb := by cases a <;> rfl
@[simp] theorem ldKWith_halted : (ldKWith a x s).halted = s.halted := by cases a <;> rfl
@[simp] theorem ldKWith_draws : (ldKWith a x s).draws = s.draws := by cases a <;> rfl
@[simp] theorem ldKWith_events : (ldKWith a x s).events = s.events := by cases a <;> rfl

theorem ldKWith_pc : (ldKWith a x s).pc = s.pc ∨ (ldKWith a x s).pc = s.pc + 2#16 := by
  cases a
  · exact .inl rfl
  · exact .inr rfl

theorem ldKWith_setMem (m : Memory) : ldKWith a x (s.setMem m) = (ldKWith a x s).setMem m := by cases a <;> rfl

theorem getV_ldKWith_of_ne {r : Reg} (h : r ≠ x) : (ldKWith a x s).getV r = s.getV r := by
  cases a
  · rfl
  · exact State.getV_setV_of_ne s h _
end

/-- A state with any other stack and stack pointer. -/
def State.withStack (s : State) (stack : Vector Word 16) (sp : Fin 17) : State := { s with stack := stack, sp := sp }

theorem ldKWith_withStack (a : Option (Fin 16)) (x : Reg) (s : State) (stack : Vector Word 16) (sp : Fin 17) :
    ldKWith a x (s.withStack stack sp) = (ldKWith a x s).withStack stack sp := by cases a <;> rfl

/-! ## CALL, RET and DRW on each side of their own check -/

theorem exec_call_of_lt {s : State} (nnn : Addr12) (h : s.sp.val < 16) : exec (.call nnn) s = .next { s with
    stack := s.stack.set s.sp.val s.pc h, sp := ⟨s.sp.val + 1, Nat.succ_lt_succ h⟩, pc := zextAddr nnn } := by
  simp only [exec, execCall, push_of_lt h, State.setPc]

theorem exec_call_of_full {s : State} (nnn : Addr12) (h : s.sp = 16) :
    exec (.call nnn) s = .next (s.halt (.stackOverflow s.pc (encode (.call nnn)))) := by
  simp only [exec, execCall, push_of_full h, raise]

theorem exec_ret_of_pos {s : State} (ign : Nibble) (h : 0 < s.sp.val) : exec (.ret ign) s = .next { s with
    sp := ⟨s.sp.val - 1, by omega⟩, pc := s.stack[s.sp.val - 1]'(by omega) + 2#16 } := by
  simp only [exec, execRet, pop_of_pos h, State.setPc, Params.retResumeOffset]

theorem exec_ret_of_empty {s : State} (ign : Nibble) (h : s.sp = 0) :
    exec (.ret ign) s = .next (s.halt (.stackUnderflow s.pc (encode (.ret ign)))) := by
  simp only [exec, execRet, pop_eq_none.2 h, raise]

/-- The height check comes before anything else (43_display.md R191). -/
theorem exec_drw_of_high {s : State} {n : Nat} (x y : Reg) (h : 15 < n) :
    exec (.drw x y n) s = .next (s.halt (.spriteSize s.pc (encode (.drw x y n)))) := if_pos h

theorem exec_drw_of_le {s : State} {n : Nat} (x y : Reg) (h : n ≤ 15) :
    exec (.drw x y n) s = withDataRange s (.drw x y n) n (fun s => .next (drawFrom x y n s)) := if_neg (Nat.not_lt.2 h)

/-- The stack has room or is full. -/
theorem sp_lt_or_full (s : State) : s.sp.val < 16 ∨ s.sp = 16 :=
  (Nat.lt_or_eq_of_le (Nat.le_of_lt_succ s.sp.isLt)).imp_right fun h => Fin.ext h

/-- The stack has an entry or is empty. -/
theorem sp_pos_or_empty (s : State) : 0 < s.sp.val ∨ s.sp = 0 :=
  (Nat.eq_zero_or_pos s.sp.val).symm.imp_right fun h => Fin.ext h

theorem setIfInBounds_of_lt {α : Type} {n k : Nat} (v : Vector α n) (a : α) (h : k < n) :
    v.setIfInBounds k a = v.set k a h := by
  ext i hi
  rw [Vector.getElem_setIfInBounds, Vector.getElem_set]

/-! ## Faults and effects -/

/-- The faults of execution (60_exceptions.md R231, R235 to R237, R240, R241): each with its cause and its record. -/
inductive Raises (i : Instr) (s : State) : Fault → Prop where
  | stackOverflow {nnn : Addr12} (hi : i = .call nnn) (hsp : s.sp = 16) : Raises i s (.stackOverflow s.pc (encode i))
  | stackUnderflow {ign : Nibble} (hi : i = .ret ign) (hsp : s.sp = 0) : Raises i s (.stackUnderflow s.pc (encode i))
  | spriteSize {x y : Reg} {n : Nat} (hi : i = .drw x y n) (hn : 15 < n) : Raises i s (.spriteSize s.pc (encode i))
  | dataBounds {k : Nat} (hk : k < i.dataBytes) (hout : 4096 ≤ s.I.toNat + k)
      (hin : ∀ j, j < k → s.I.toNat + j < 4096) : Raises i s (.dataBounds s.pc (encode i) (s.I.toNat + k))

/-- The state an instruction leaves when it raises no fault. The six that can fault are written out; of any other it is
what `exec` answers. -/
def effect (i : Instr) (s : State) : State :=
  match i with
  | .call nnn => { s with
      stack := s.stack.setIfInBounds s.sp.val s.pc, sp := ⟨min (s.sp.val + 1) 16, by omega⟩, pc := zextAddr nnn }
  | .ret _ => { s with sp := ⟨s.sp.val - 1, by omega⟩, pc := s.stack[s.sp.val - 1]'(by omega) + 2#16 }
  | .drw x y n => drawFrom x y n s
  | .ldB x => (s.setMem (s.mem.writeBytes (s.ea 0) (decimalDigits (s.getV x)))).advance
  | .storeRegs x => (s.setMem (s.mem.writeBytes (s.ea 0) (s.regsUpTo x))).advance
  | .loadRegs x => (s.setRegs (fillRegs (s.mem.readBytes (s.ea 0) (x.val + 1)) 0 s.V)).advance
  | i => match exec i s with
    | .next t => t
    | _ => s

/-- An instruction completes: nothing that could stop it holds, and it leaves its effect. -/
structure Completes (i : Instr) (s t : State) : Prop where
  room : ∀ nnn, i = .call nnn → s.sp.val < 16
  entry : ∀ ign, i = .ret ign → 0 < s.sp.val
  height : ∀ x y n, i = .drw x y n → n ≤ 15
  inMemory : ∀ k, k < i.dataBytes → s.I.toNat + k < 4096
  eq_effect : t = effect i s

/-- A checked access, by an instruction that nothing else can stop, that goes on with the instruction's effect. -/
theorem withDataRange_effect {i : Instr} {s t : State} (hroom : ∀ nnn, i = .call nnn → s.sp.val < 16)
    (hentry : ∀ ign, i = .ret ign → 0 < s.sp.val) (hheight : ∀ x y n, i = .drw x y n → n ≤ 15)
    (h : withDataRange s i i.dataBytes (fun s => .next (effect i s)) = .next t) :
    (∃ f, Raises i s f ∧ t = s.halt f) ∨ Completes i s t := by
  obtain ⟨k, hk, hout, hin, rfl⟩ | ⟨hin, hnext⟩ := withDataRange_next h
  · exact .inl ⟨_, .dataBounds hk hout hin, rfl⟩
  · cases hnext
    exact .inr ⟨hroom, hentry, hheight, hin, rfl⟩

/-- Everything an execution can do: it halts with a record whose cause holds, or it completes. -/
theorem exec_next_cases {i : Instr} {s t : State} (h : exec i s = .next t) :
    (∃ f, Raises i s f ∧ t = s.halt f) ∨ Completes i s t := by
  cases i with
  | call nnn =>
    obtain hsp | hsp := sp_lt_or_full s
    · rw [exec_call_of_lt nnn hsp] at h
      cases h
      refine .inr ⟨fun _ _ => hsp, nofun, nofun, nofun, ?_⟩
      simp only [effect, Nat.min_eq_left hsp, setIfInBounds_of_lt s.stack s.pc hsp]
    · rw [exec_call_of_full nnn hsp] at h
      cases h
      exact .inl ⟨_, .stackOverflow rfl hsp, rfl⟩
  | ret ign =>
    obtain hsp | hsp := sp_pos_or_empty s
    · rw [exec_ret_of_pos ign hsp] at h
      cases h
      exact .inr ⟨nofun, fun _ _ => hsp, nofun, nofun, rfl⟩
    · rw [exec_ret_of_empty ign hsp] at h
      cases h
      exact .inl ⟨_, .stackUnderflow rfl hsp, rfl⟩
  | drw x y n =>
    obtain hn | hn := Nat.lt_or_ge 15 n
    · rw [exec_drw_of_high x y hn] at h
      cases h
      exact .inl ⟨_, .spriteSize rfl hn, rfl⟩
    · rw [exec_drw_of_le x y hn] at h
      exact withDataRange_effect nofun nofun (by rintro _ _ _ ⟨⟩; exact hn) h
  | ldB x => exact withDataRange_effect nofun nofun nofun h
  | storeRegs x => exact withDataRange_effect nofun nofun nofun h
  | loadRegs x => exact withDataRange_effect nofun nofun nofun h
  | _ =>
    cases h
    exact .inr ⟨nofun, nofun, nofun, nofun, rfl⟩

/-- The two ends of an execution, without their causes: what a frame needs. -/
theorem eq_effect_or_eq_halt {i : Instr} {s t : State} (h : exec i s = .next t) :
    t = effect i s ∨ ∃ f, t = s.halt f :=
  (exec_next_cases h).symm.imp Completes.eq_effect fun ⟨f, _, ht⟩ => ⟨f, ht⟩

/-! ## What a completed instruction leaves unchanged -/

theorem effect_halted (i : Instr) (s : State) : (effect i s).halted = s.halted := by
  cases i with
  | ldVxK x => exact ldKWith_halted ..
  | _ => rfl

theorem effect_mem {i : Instr} (s : State) (hB : ∀ x, i ≠ .ldB x) (hst : ∀ x, i ≠ .storeRegs x) :
    (effect i s).mem = s.mem := by
  cases i with
  | ldB x => exact absurd rfl (hB x)
  | storeRegs x => exact absurd rfl (hst x)
  | ldVxK x => exact ldKWith_mem ..
  | _ => rfl

theorem effect_I {i : Instr} (s : State) (hI : ∀ nnn, i ≠ .ldI nnn) (hadd : ∀ x, i ≠ .addI x) (hF : ∀ x, i ≠ .ldF x) :
    (effect i s).I = s.I := by
  cases i with
  | ldI nnn => exact absurd rfl (hI nnn)
  | addI x => exact absurd rfl (hadd x)
  | ldF x => exact absurd rfl (hF x)
  | ldVxK x => exact ldKWith_I ..
  | _ => rfl

theorem effect_stack {i : Instr} (s : State) (hcall : ∀ nnn, i ≠ .call nnn) : (effect i s).stack = s.stack := by
  cases i with
  | call nnn => exact absurd rfl (hcall nnn)
  | ldVxK x => exact ldKWith_stack ..
  | _ => rfl

theorem effect_sp {i : Instr} (s : State) (hcall : ∀ nnn, i ≠ .call nnn) (hret : ∀ ign, i ≠ .ret ign) :
    (effect i s).sp = s.sp := by
  cases i with
  | call nnn => exact absurd rfl (hcall nnn)
  | ret ign => exact absurd rfl (hret ign)
  | ldVxK x => exact ldKWith_sp ..
  | _ => rfl

theorem effect_fb {i : Instr} (s : State) (hcls : ∀ ign, i ≠ .cls ign) (hdrw : ∀ x y n, i ≠ .drw x y n) :
    (effect i s).fb = s.fb := by
  cases i with
  | cls ign => exact absurd rfl (hcls ign)
  | drw x y n => exact absurd rfl (hdrw x y n)
  | ldVxK x => exact ldKWith_fb ..
  | _ => rfl

theorem effect_getV {i : Instr} {r : Reg} (s : State) (h : i.mayWriteReg r = false) :
    (effect i s).getV r = s.getV r := by
  cases i with
  | ldImm x _ | addImm x _ | ldReg x _ | orReg x _ | andReg x _ | xorReg x _ | rnd x _ | ldVxDT x =>
    exact State.getV_setV_of_ne _ (ne_of_beq_false h) _
  | ldVxK x => exact getV_ldKWith_of_ne _ _ _ (ne_of_beq_false h)
  | addReg x _ | sub x _ | shr x _ | subn x _ | shl x _ =>
    obtain ⟨hx, hflag⟩ := Bool.or_eq_false_iff.1 h
    refine (State.getV_setResultFlag _ x r _ _).trans ?_
    rw [if_neg (ne_of_beq_false hflag), if_neg (ne_of_beq_false hx)]
  | drw x y n => exact State.getV_setV_of_ne _ (ne_of_beq_false h) _
  | loadRegs x =>
    have hx : x.val < r.val := Nat.lt_of_not_le (of_decide_eq_false h)
    refine (getElem_fillRegs _ 0 s.V r.val r.isLt).trans ?_
    rw [if_pos (Nat.zero_le _), List.getElem?_eq_none (by simpa using hx), Option.getD_none, State.getV]
  | _ => rfl

/-- The new `pc` by class (30_encoding.md R81). -/
theorem effect_pc (i : Instr) (s : State) :
    (i.advanceClass = .sequential → (effect i s).pc = s.pc + 2#16) ∧
    (i.advanceClass = .skip → (effect i s).pc = s.pc + 2#16 ∨ (effect i s).pc = s.pc + 4#16) ∧
    (i.advanceClass = .wait → (effect i s).pc = s.pc ∨ (effect i s).pc = s.pc + 2#16) := by
  have hskip (u : State) (c : Bool) : (u.skipIf c).pc = u.pc + 2#16 ∨ (u.skipIf c).pc = u.pc + 4#16 := by
    cases c
    · exact .inl rfl
    · exact .inr rfl
  cases i with
  | seImm | sneImm | seReg | sneReg | skp | sknp => exact ⟨nofun, fun _ => hskip .., nofun⟩
  | jp | call | jpV0 | ret => exact ⟨nofun, nofun, nofun⟩
  | ldVxK x => exact ⟨nofun, nofun, fun _ => ldKWith_pc ..⟩
  | _ => exact ⟨fun _ => rfl, nofun, nofun⟩

end Sys2Proof.Machine
end

section
/-! What every execution and every step leaves unchanged, and what a fault record says (60_exceptions.md sections 1, 2
and 5; 10_state.md; 20_memory.md section 1; 43_display.md section 1): each from the two ways an execution can end. -/

namespace Sys2Proof.Machine

/-! ## No execution is refused, and only a halted block answers a fault -/

theorem exists_withDataRange_effect_eq_next (i : Instr) (s : State) :
    ∃ t, withDataRange s i i.dataBytes (fun s => .next (effect i s)) = .next t := by
  unfold withDataRange
  split
  · exact ⟨_, rfl⟩
  · exact ⟨_, rfl⟩

theorem exists_exec_eq_next (i : Instr) (s : State) : ∃ t, exec i s = .next t := by
  cases i with
  | call nnn =>
    obtain hsp | hsp := sp_lt_or_full s
    · exact ⟨_, exec_call_of_lt nnn hsp⟩
    · exact ⟨_, exec_call_of_full nnn hsp⟩
  | ret ign =>
    obtain hsp | hsp := sp_pos_or_empty s
    · exact ⟨_, exec_ret_of_pos ign hsp⟩
    · exact ⟨_, exec_ret_of_empty ign hsp⟩
  | drw x y n =>
    obtain hn | hn := Nat.lt_or_ge 15 n
    · exact ⟨_, exec_drw_of_high x y hn⟩
    · rw [exec_drw_of_le x y hn]
      exact exists_withDataRange_effect_eq_next (.drw x y n) s
  | ldB x => exact exists_withDataRange_effect_eq_next (.ldB x) s
  | storeRegs x => exact exists_withDataRange_effect_eq_next (.storeRegs x) s
  | loadRegs x => exact exists_withDataRange_effect_eq_next (.loadRegs x) s
  | _ => exact ⟨_, rfl⟩

/-- A step answers the record of a halted block, and a next state otherwise. -/
theorem step_cases (s : State) : (∃ f, s.halted = some f ∧ step s = .fault f) ∨
    (s.halted = none ∧ ∃ t, step s = .next t) := by
  cases hs : s.halted with
  | some f => exact .inl ⟨f, rfl, step_of_halted hs⟩
  | none =>
    refine .inr ⟨rfl, ?_⟩
    cases hf : s.fetch with
    | none => exact ⟨_, step_of_fetch_none hs hf⟩
    | some w =>
      cases hd : decodeWord w with
      | error e => exact ⟨_, step_of_error hs hf hd⟩
      | ok i =>
        rw [step_of_ok hs hf hd]
        exact exists_exec_eq_next i s

/-- Settles O10: an execution always answers a next state. -/
theorem noStepIsRefused : Obligations.NoStepIsRefused := by
  intro s i r
  constructor
  · obtain ⟨f, _, h⟩ | ⟨_, t, h⟩ := step_cases s <;> rw [h] <;> exact nofun
  · obtain ⟨t, h⟩ := exists_exec_eq_next i s
    rw [h]
    exact nofun

/-! ## Faults -/

/-- Settles O11: a step of a running block either halts it, writing the record alone, or leaves it running. -/
theorem faultingStepWritesOnlyTheRecord : Obligations.FaultingStepWritesOnlyTheRecord := by
  intro s t h ht
  obtain ⟨hs, ⟨_, rfl⟩ | ⟨w, e, _, _, rfl⟩ | ⟨w, i, _, _, hexec⟩⟩ := step_next h
  · rfl
  · rfl
  · obtain rfl | ⟨f, rfl⟩ := eq_effect_or_eq_halt hexec
    · exact absurd ((effect_halted i s).trans hs) ht
    · rfl

/-- The record of a fetched instruction's fault is true of the state the fault leaves. -/
theorem Raises.trueOf {i : Instr} {s : State} {w : Word} {f : Fault} (h : Raises i s f) (hfetch : s.fetch = some w)
    (hdec : decodeWord w = .ok i) : f.trueOf (s.halt f) ∧ ∀ e, f ≠ .programLoad e := by
  obtain ⟨hwf, rfl⟩ := heldBy_of_decodeWord hdec
  cases h with
  | stackOverflow hi hsp => exact ⟨⟨rfl, hfetch, ⟨_, hdec.trans (congrArg _ hi)⟩, hsp⟩, nofun⟩
  | stackUnderflow hi hsp => exact ⟨⟨rfl, hfetch, ⟨_, hdec.trans (congrArg _ hi)⟩, hsp⟩, nofun⟩
  | spriteSize hi hn =>
    subst hi
    exact absurd hn (Nat.not_lt.2 (of_decide_eq_true hwf))
  | @dataBounds k hk hout hin =>
    refine ⟨⟨rfl, hfetch, hout, i, i.dataBytes, k, hdec, hk, rfl, hin, ?_⟩, nofun⟩
    obtain ⟨x, y, n, rfl⟩ | ⟨x, rfl⟩ | ⟨x, rfl⟩ | ⟨x, rfl⟩ := Instr.dataBytes_pos (Nat.zero_lt_of_lt hk)
    · have hn : n % 16 = n := Nat.mod_eq_of_lt (Nat.lt_succ_of_le (of_decide_eq_true hwf))
      simp [encode, Instr.dataBytes, hn]
    · simp [encode, Instr.dataBytes]
    · simp [encode, Instr.dataBytes]
    · simp [encode, Instr.dataBytes]

/-- Settles O12: the fetch, the decoder and the execution each record their own cause. -/
theorem faultRecordIsTrue : Obligations.FaultRecordIsTrue := by
  intro s t f h hf
  obtain ⟨hs, ⟨hfetch, rfl⟩ | ⟨w, e, hfetch, hdec, rfl⟩ | ⟨w, i, hfetch, hdec, hexec⟩⟩ := step_next h
  · cases hf
    exact ⟨⟨rfl, fetch_eq_none.1 hfetch⟩, nofun⟩
  · cases hf
    exact ⟨⟨rfl, hfetch, e, hdec⟩, nofun⟩
  · obtain ⟨g, hg, rfl⟩ | hdone := exec_next_cases hexec
    · cases hf
      exact hg.trueOf hfetch hdec
    · rw [hdone.eq_effect, effect_halted, hs] at hf
      exact nomatch hf

/-- Settles O13: each fault names its instruction. -/
theorem otherInstructionsNeverFault : Obligations.OtherInstructionsNeverFault := by
  intro i s t h hcall hret hdrw hB hst hld
  obtain ⟨f, hf, rfl⟩ | hdone := exec_next_cases h
  · cases hf with
    | stackOverflow hi _ => exact absurd hi (hcall _)
    | stackUnderflow hi _ => exact absurd hi (hret _)
    | spriteSize hi _ => exact absurd hi (hdrw _ _ _)
    | dataBounds hk _ _ =>
      obtain ⟨x, y, n, hi⟩ | ⟨x, hi⟩ | ⟨x, hi⟩ | ⟨x, hi⟩ := Instr.dataBytes_pos (Nat.zero_lt_of_lt hk)
      · exact absurd hi (hdrw x y n)
      · exact absurd hi (hB x)
      · exact absurd hi (hst x)
      · exact absurd hi (hld x)
  · rw [hdone.eq_effect, effect_halted]

/-! ## Frames -/

/-- Settles O14: an execution that is not halted completed. -/
theorem pcAdvancesByClass : Obligations.PcAdvancesByClass := by
  intro i s t h ht
  obtain rfl | ⟨f, rfl⟩ := eq_effect_or_eq_halt h
  · exact effect_pc i s
  · exact nomatch ht

/-- Settles O15. A fault writes no register, and a completed instruction none but its own. -/
theorem onlyDestinationRegistersChange : Obligations.OnlyDestinationRegistersChange := by
  intro i s t r h hr
  obtain rfl | ⟨f, rfl⟩ := eq_effect_or_eq_halt h
  · exact effect_getV s hr
  · rfl

/-- Memory after any instruction that stores nothing. -/
theorem exec_mem {i : Instr} {s t : State} (h : exec i s = .next t) (hB : ∀ x, i ≠ .ldB x)
    (hst : ∀ x, i ≠ .storeRegs x) : t.mem = s.mem := by
  obtain rfl | ⟨f, rfl⟩ := eq_effect_or_eq_halt h
  · exact effect_mem s hB hst
  · rfl

/-- Settles O16: memory is the same data, so every address reads the same. -/
theorem onlyStoresChangeMemory : Obligations.OnlyStoresChangeMemory := by
  intro i s t h hB hst a
  rw [exec_mem h hB hst]

/-- Settles O18. A fault leaves `I`, and so does every completed instruction but three. -/
theorem onlyAddressInstructionsChangeI : Obligations.OnlyAddressInstructionsChangeI := by
  intro i s t h hI hadd hF
  obtain rfl | ⟨f, rfl⟩ := eq_effect_or_eq_halt h
  · exact effect_I s hI hadd hF
  · rfl

/-- Settles O20. A fault leaves the framebuffer, and so does every completed instruction but two. -/
theorem onlyDrawAndClearChangeTheScreen : Obligations.OnlyDrawAndClearChangeTheScreen := by
  intro i s t h hcls hdrw
  obtain rfl | ⟨f, rfl⟩ := eq_effect_or_eq_halt h
  · exact effect_fb s hcls hdrw
  · rfl

/-- Settles O21: one case for each instruction that uses a port; any other leaves both counts, completed or not. -/
theorem onlyPortInstructionsUsePorts : Obligations.OnlyPortInstructionsUsePorts := by
  intro i s t h
  cases i with
  | rnd x kk =>
    cases h
    exact .inl ⟨rfl, rfl, .inl ⟨x, kk, rfl⟩⟩
  | skp x =>
    cases h
    exact .inl ⟨rfl, rfl, .inr ⟨x, .inl rfl⟩⟩
  | sknp x =>
    cases h
    exact .inl ⟨rfl, rfl, .inr ⟨x, .inr (.inl rfl)⟩⟩
  | ldVxK x =>
    cases h
    exact .inl ⟨ldKWith_draws .., ldKWith_events .., .inr ⟨x, .inr (.inr (.inl rfl))⟩⟩
  | ldVxDT x =>
    cases h
    exact .inl ⟨rfl, rfl, .inr ⟨x, .inr (.inr (.inr rfl))⟩⟩
  | ldDTVx x =>
    cases h
    exact .inr (.inl ⟨rfl, ⟨_, rfl⟩, x, .inl rfl⟩)
  | ldSTVx x =>
    cases h
    exact .inr (.inl ⟨rfl, ⟨_, rfl⟩, x, .inr rfl⟩)
  | _ =>
    have hports : t.draws = s.draws ∧ t.events = s.events := by
      obtain rfl | ⟨f, rfl⟩ := eq_effect_or_eq_halt h
      · exact ⟨rfl, rfl⟩
      · exact ⟨rfl, rfl⟩
    exact .inr (.inr ⟨hports.1, hports.2, nofun, fun _ => ⟨nofun, nofun, nofun, nofun, nofun, nofun⟩⟩)

/-! ## Independence -/

/-- Settles O17: an instruction without data bytes computes the same from any memory. -/
theorem noOtherInstructionTouchesMemory : Obligations.NoOtherInstructionTouchesMemory := by
  intro i s t m h hdrw hB hst hld
  refine ⟨exec_mem h hB hst, ?_⟩
  cases i with
  | drw x y n => exact absurd rfl (hdrw x y n)
  | ldB x => exact absurd rfl (hB x)
  | storeRegs x => exact absurd rfl (hst x)
  | loadRegs x => exact absurd rfl (hld x)
  | call nnn =>
    obtain hsp | hsp := sp_lt_or_full s
    · rw [exec_call_of_lt nnn hsp] at h
      cases h
      exact exec_call_of_lt (s := s.setMem m) nnn hsp
    · rw [exec_call_of_full nnn hsp] at h
      cases h
      exact exec_call_of_full nnn hsp
  | ret ign =>
    obtain hsp | hsp := sp_pos_or_empty s
    · rw [exec_ret_of_pos ign hsp] at h
      cases h
      exact exec_ret_of_pos (s := s.setMem m) ign hsp
    · rw [exec_ret_of_empty ign hsp] at h
      cases h
      exact exec_ret_of_empty ign hsp
  | ldVxK x =>
    cases h
    exact congrArg _ (ldKWith_setMem _ x s.countDraw m)
  | _ =>
    cases h
    rfl

/-- A checked access commutes with a change of the stack when its effect does: the check reads `I`, and the record holds
`pc` and the word. -/
theorem withDataRange_withStack {s t : State} {i : Instr} {stack : Vector Word 16} {sp : Fin 17}
    (heff : effect i (s.withStack stack sp) = (effect i s).withStack stack sp)
    (h : withDataRange s i i.dataBytes (fun s => .next (effect i s)) = .next t) :
    withDataRange (s.withStack stack sp) i i.dataBytes (fun s => .next (effect i s)) =
      .next (t.withStack stack sp) := by
  have hrange : (s.withStack stack sp).firstOutOfRange i.dataBytes = s.firstOutOfRange i.dataBytes := rfl
  unfold withDataRange at h ⊢
  rw [hrange]
  split at h
  · cases h
    rfl
  · cases h
    exact congrArg _ heff

/-- Settles O19: the entries change under CALL alone, and an instruction but CALL and RET computes the same from any
stack. -/
theorem onlyCallAndRetReachTheStack : Obligations.OnlyCallAndRetReachTheStack := by
  intro i s t stack sp h hcall
  have hstack : t.stack = s.stack := by
    obtain rfl | ⟨f, rfl⟩ := eq_effect_or_eq_halt h
    · exact effect_stack s hcall
    · rfl
  refine ⟨fun hret => ⟨hstack, ?_, ?_⟩, hstack⟩
  · obtain rfl | ⟨f, rfl⟩ := eq_effect_or_eq_halt h
    · exact effect_sp s hcall hret
    · rfl
  · cases i with
    | call nnn => exact absurd rfl (hcall nnn)
    | ret ign => exact absurd rfl (hret ign)
    | drw x y n =>
      obtain hn | hn := Nat.lt_or_ge 15 n
      · rw [exec_drw_of_high x y hn] at h
        cases h
        exact exec_drw_of_high x y hn
      · rw [exec_drw_of_le x y hn] at h
        rw [exec_drw_of_le x y hn]
        exact withDataRange_withStack (i := .drw x y n) rfl h
    | ldB x => exact withDataRange_withStack (i := .ldB x) rfl h
    | storeRegs x => exact withDataRange_withStack (i := .storeRegs x) rfl h
    | loadRegs x => exact withDataRange_withStack (i := .loadRegs x) rfl h
    | ldVxK x =>
      cases h
      exact congrArg _ (ldKWith_withStack _ x s.countDraw stack sp)
    | _ =>
      cases h
      rfl

end Sys2Proof.Machine
end

section
/-! The step cycle and the step port (30_encoding.md R71, R80; 60_exceptions.md R233, R234, R238, R239, R250). -/

namespace Sys2Proof

theorem toNat_wordOfBytes (hi lo : Byte) : (wordOfBytes hi lo).toNat = 256 * hi.toNat + lo.toNat := by
  rw [wordOfBytes, BitVec.toNat_append, ← Nat.shiftLeft_add_eq_or_of_lt lo.isLt, Nat.shiftLeft_eq, Nat.mul_comm]

end Sys2Proof

namespace Sys2Proof.Machine

/-- Settles O6: the fetch succeeds and the decoder accepts. -/
theorem stepRunsTheDecodedInstruction : Obligations.StepRunsTheDecodedInstruction := fun _ _ hs hpc hdec =>
  step_of_ok hs (fetch_of_lt hpc) (decode_cons_cons_eq_ok.1 hdec).1

/-- Settles O7, on each side of the last fetchable address. -/
theorem fetchReadsTwoBytesOrFaults : Obligations.FetchReadsTwoBytesOrFaults := fun _ =>
  ⟨fun hpc => ⟨_, fetch_of_lt hpc, toNat_wordOfBytes ..⟩,
    fun hs hpc => ⟨step_of_fetch_none hs (fetch_eq_none.2 hpc), rfl, step_of_halted rfl⟩⟩

/-- Settles O8: the decoder's refusal becomes the record. -/
theorem unknownWordIsADecodeError : Obligations.UnknownWordIsADecodeError := fun _ _ _ hs hfetch hdec =>
  ⟨step_of_error hs hfetch hdec, step_of_halted rfl⟩

/-- Settles O9: the step port shows the step's answer, and only a halted block's step answers a fault. -/
theorem haltedBlockAnswersItsRecord : Obligations.HaltedBlockAnswersItsRecord := by
  refine fun s => ⟨fun t h => by rw [stepPort, h], fun f => ⟨fun h => by rw [stepPort, step_of_halted h], ?_⟩⟩
  refine ⟨fun h => ?_, step_of_halted⟩
  obtain ⟨g, hg, h'⟩ | ⟨_, t, h'⟩ := step_cases s
  · rw [hg, Option.some.injEq]
    exact Host.Outcome.fault.inj (h'.symm.trans h)
  · exact nomatch h'.symm.trans h

/-- Settles O60: each record's parts are read off its constructor. -/
theorem recordPartsOfEachKind : Obligations.RecordPartsOfEachKind := fun _ _ _ =>
  ⟨rfl, rfl, rfl, rfl, rfl, rfl, rfl, rfl⟩

end Sys2Proof.Machine
end

section
/-! Control flow (40_control_flow.md section 2): jumps, CALL and RET, skips, and the nibbles no meaning reads. -/

namespace Sys2Proof.Machine

/-- Settles O22. Six meanings take no account of the nibble; RET names it only in the record of an empty stack. -/
theorem ignoredNibblesDoNothing : Obligations.IgnoredNibblesDoNothing := by
  refine fun a b x y s => ⟨rfl, rfl, rfl, rfl, rfl, rfl, fun hsp => ?_⟩
  have hpos : 0 < s.sp.val := (sp_pos_or_empty s).resolve_right hsp
  rw [exec_ret_of_pos a hpos, exec_ret_of_pos b hpos]

/-- Settles O23. -/
theorem nopOnlyAdvances : Obligations.NopOnlyAdvances := fun ign _ => ⟨decodeWord_encode (i := .nop ign) rfl, rfl⟩

/-- Settles O24; the last fetchable address is 0xFFE. -/
theorem jumpReplacesPc : Obligations.JumpReplacesPc := by
  refine fun nnn s => ⟨decodeWord_encode (i := .jp nnn) rfl, rfl, fun hpc => ?_, ?_⟩
  · exact congrArg (fun p => Host.Outcome.next (s.setPc p)) hpc.symm
  · rintro rfl hs
    exact step_of_fetch_none hs (fetch_eq_none.2 (by decide : 4096 ≤ (BitVec.setWidth 16 0xFFF#12).toNat + 1))

/-- Settles O25, with room on the stack and without. -/
theorem callPushesItsOwnAddress : Obligations.CallPushesItsOwnAddress := fun nnn _ =>
  ⟨decodeWord_encode (i := .call nnn) rfl, fun hroom => exec_call_of_lt nnn hroom,
    fun hfull => ⟨exec_call_of_full nnn hfull, step_of_halted rfl⟩⟩

/-- Settles O26. -/
theorem returnOnEmptyStackFaults : Obligations.ReturnOnEmptyStackFaults := fun ign _ hsp =>
  ⟨_, exec_ret_of_empty ign hsp, rfl, step_of_halted rfl⟩

/-- Settles O27: the entry below `sp` is entry `k`. -/
theorem returnPopsAndResumes : Obligations.ReturnPopsAndResumes := by
  refine fun ign s => ⟨decodeWord_encode (i := .ret ign) rfl, fun k hk hsp => ?_⟩
  rw [exec_ret_of_pos ign (hsp ▸ Nat.succ_pos k)]
  simp only [hsp, Nat.add_sub_cancel]

/-- Settles O28: the RET pops the entry that the CALL wrote. -/
theorem callThenReturnComesBack : Obligations.CallThenReturnComesBack := by
  refine fun nnn ign s hroom => ⟨_, exec_call_of_lt nnn hroom, rfl, Vector.getElem_set_self hroom, ?_⟩
  rw [exec_ret_of_pos ign (Nat.succ_pos s.sp.val)]
  simp only [Nat.add_sub_cancel, Vector.getElem_set_self]

/-- A skip on a condition that a proposition states. -/
theorem skipIf_of_iff {s : State} {c : Bool} {p : Prop} [Decidable p] (h : c = true ↔ p) :
    s.skipIf c = { s with pc := if p then s.pc + 4#16 else s.pc + 2#16 } := by
  rw [State.skipIf, State.setPc]
  simp only [h, apply_ite (s.pc + ·)]

/-- Settles O29. -/
theorem immediateSkipsCompare : Obligations.ImmediateSkipsCompare := fun x kk _ =>
  ⟨decodeWord_encode (i := .seImm x kk) rfl, decodeWord_encode (i := .sneImm x kk) rfl,
    congrArg _ (skipIf_of_iff beq_iff_eq), congrArg _ (skipIf_of_iff bne_iff_ne)⟩

/-- Settles O30. -/
theorem registerSkipsCompare : Obligations.RegisterSkipsCompare := fun x y ign _ =>
  ⟨decodeWord_encode (i := .seReg x y ign) rfl, decodeWord_encode (i := .sneReg x y ign) rfl,
    congrArg _ (skipIf_of_iff beq_iff_eq), congrArg _ (skipIf_of_iff bne_iff_ne)⟩

/-- An 8-bit and a 12-bit number add without wrapping at 16 bits (40_control_flow.md R109). -/
theorem toNat_zextByte_add_zextAddr (v : Byte) (nnn : Addr12) :
    (zextByte v + zextAddr nnn).toNat = v.toNat + nnn.toNat := by
  unfold zextByte zextAddr
  bv_omega

/-- Settles O31. -/
theorem jumpWithOffsetAddsExactly : Obligations.JumpWithOffsetAddsExactly := fun nnn s =>
  ⟨decodeWord_encode (i := .jpV0 nnn) rfl, _, rfl, toNat_zextByte_add_zextAddr (s.getV 0) nnn, rfl⟩

end Sys2Proof.Machine
end

section
/-! Arithmetic and logic (41_alu.md): the 8-bit results and flags as numbers, and the instructions that write a result
and then the flag. -/

namespace Sys2Proof.Machine

/-! ## Results and flags as numbers -/

theorem toNat_addResult (a b : Byte) : (addResult a b).toNat = (a.toNat + b.toNat) % 256 := BitVec.toNat_ofNat ..

theorem toNat_subResult (a b : Byte) : (subResult a b).toNat = (256 + a.toNat - b.toNat) % 256 := by
  have := a.isLt
  have := b.isLt
  rw [subResult, BitVec.toNat_ofInt]
  omega

theorem toNat_shrResult (a : Byte) : (shrResult a).toNat = a.toNat / 2 := by
  rw [shrResult, BitVec.toNat_ushiftRight, Nat.shiftRight_eq_div_pow, Nat.pow_one]

theorem toNat_shlResult (a : Byte) : (shlResult a).toNat = 2 * a.toNat % 256 := by
  rw [shlResult, BitVec.toNat_shiftLeft, Nat.shiftLeft_eq, Nat.pow_one, Nat.mul_comm]

theorem addCarry_iff (a b : Byte) : addCarry a b = true ↔ 255 < a.toNat + b.toNat := decide_eq_true_iff

theorem noBorrow_iff (a b : Byte) : noBorrow a b = true ↔ a.toNat > b.toNat := decide_eq_true_iff

theorem shrFlag_iff (a : Byte) : shrFlag a = true ↔ a.toNat % 2 = 1 := by
  rw [shrFlag, BitVec.getLsbD, Nat.testBit_zero, decide_eq_true_iff]

theorem shlFlag_iff (a : Byte) : shlFlag a = true ↔ 128 ≤ a.toNat := by
  have := a.isLt
  rw [shlFlag, BitVec.getLsbD, Nat.testBit_eq_decide_div_mod_eq, decide_eq_true_iff]
  omega

theorem bool01_of_iff {b : Bool} {p : Prop} [Decidable p] (h : b = true ↔ p) :
    bool01 b = if p then 0x01#8 else 0x00#8 := by
  simp only [bool01, h]

/-! ## Loads and logic: one register, no flag -/

/-- Settles O32. -/
theorem loadsCopy : Obligations.LoadsCopy := fun x y kk _ =>
  ⟨decodeWord_encode (i := .ldImm x kk) rfl, decodeWord_encode (i := .ldReg x y) rfl, rfl, rfl⟩

/-- Settles O33. -/
theorem addImmediateWraps : Obligations.AddImmediateWraps := by
  refine fun x kk s => ⟨decodeWord_encode (i := .addImm x kk) rfl, _, rfl, ?_, fun y hy => ?_, rfl⟩
  · rw [State.getV_advance, State.getV_setV_self, toNat_addResult]
  · rw [State.getV_advance, State.getV_setV_of_ne s hy]

/-- Settles O34. -/
theorem bitwiseOperations : Obligations.BitwiseOperations := fun x y _ =>
  ⟨decodeWord_encode (i := .orReg x y) rfl, decodeWord_encode (i := .andReg x y) rfl,
    decodeWord_encode (i := .xorReg x y) rfl, rfl, rfl, rfl⟩

/-- Settles O38. -/
theorem randomByteIsMasked : Obligations.RandomByteIsMasked := fun x kk _ =>
  ⟨decodeWord_encode (i := .rnd x kk) rfl, rfl⟩

/-! ## A result and then the flag (10_state.md R24) -/

/-- A flag-writing instruction, from what its result and its flag are as numbers. -/
theorem setResultFlag_spec (s : State) (x : Reg) {v : Byte} {b : Bool} {result : Nat} {p : Prop} [Decidable p]
    (hv : v.toNat = result) (hb : b = true ↔ p) :
    ∃ t : State, (Host.Outcome.next (s.setResultFlag x v b).advance : Result) = .next t ∧
      (x ≠ 15 → (t.getV x).toNat = result) ∧ t.getV 15 = (if p then 0x01#8 else 0x00#8) ∧
      (∀ r, r ≠ x → r ≠ 15 → t.getV r = s.getV r) ∧ t = { s with V := t.V, pc := s.pc + 2#16 } := by
  refine ⟨_, rfl, fun hx => ?_, ?_, fun r hrx hr => ?_, rfl⟩
  · rw [State.getV_advance, State.getV_setResultFlag, if_neg hx, if_pos rfl, hv]
  · rw [State.getV_advance, State.getV_setResultFlag, if_pos rfl, bool01_of_iff hb]
  · rw [State.getV_advance, State.getV_setResultFlag, if_neg hr, if_neg hrx]

/-- Settles O35. -/
theorem addSetsCarry : Obligations.AddSetsCarry := fun x y s =>
  ⟨decodeWord_encode (i := .addReg x y) rfl, setResultFlag_spec s x (toNat_addResult ..) (addCarry_iff ..)⟩

/-- Settles O36. -/
theorem subtractionsSetNoBorrow : Obligations.SubtractionsSetNoBorrow := fun x y s =>
  ⟨decodeWord_encode (i := .sub x y) rfl, decodeWord_encode (i := .subn x y) rfl,
    setResultFlag_spec s x (toNat_subResult ..) (noBorrow_iff ..),
    setResultFlag_spec s x (toNat_subResult ..) (noBorrow_iff ..)⟩

/-- Settles O37. -/
theorem shiftsKeepTheBitShiftedOut : Obligations.ShiftsKeepTheBitShiftedOut := fun x ign s =>
  ⟨decodeWord_encode (i := .shr x ign) rfl, decodeWord_encode (i := .shl x ign) rfl,
    setResultFlag_spec s x (toNat_shrResult _) (shrFlag_iff _),
    setResultFlag_spec s x (toNat_shlResult _) (shlFlag_iff _)⟩

end Sys2Proof.Machine
end

section
/-! Address register and memory instructions (42_index_memory.md, 20_memory.md section 1): their equations on each side
of the end of memory, the bytes they move, and memories in canonical form. -/

namespace Sys2Proof.Machine

/-! ## Address register -/

theorem toNat_zextByte (v : Byte) : (zextByte v).toNat = v.toNat := by
  have := v.isLt
  rw [zextByte, BitVec.toNat_setWidth]
  omega

/-- The glyph of the largest digit lies far below 2^16. -/
theorem toNat_glyphAddr_fontDigit (v : Byte) : (glyphAddr (fontDigit v)).toNat = 5 * v.toNat := by
  have := v.isLt
  rw [glyphAddr, BitVec.toNat_ofNat]
  simp only [fontDigit, Params.fx29MaskLowNibble, Params.fontBase, Params.fontGlyphBytes, Bool.false_eq_true, if_false]
  omega

/-- Settles O39. -/
theorem loadAddressRegister : Obligations.LoadAddressRegister := fun nnn _ =>
  ⟨decodeWord_encode (i := .ldI nnn) rfl, rfl⟩

/-- Settles O40. -/
theorem addressRegisterArithmetic : Obligations.AddressRegisterArithmetic := by
  refine fun x s => ⟨decodeWord_encode (i := .addI x) rfl, decodeWord_encode (i := .ldF x) rfl, ⟨_, rfl, ?_, rfl⟩,
    ⟨_, rfl, toNat_glyphAddr_fontDigit _, rfl⟩⟩
  rw [State.advance_I, State.setI_I, BitVec.toNat_add, toNat_zextByte]

/-! ## The transfers on each side of the end of memory -/

theorem exec_ldB (x : Reg) (s : State) :
    exec (.ldB x) s = withDataRange s (.ldB x) 3 (fun s => .next (effect (.ldB x) s)) := rfl

theorem exec_storeRegs (x : Reg) (s : State) :
    exec (.storeRegs x) s = withDataRange s (.storeRegs x) (x.val + 1) (fun s => .next (effect (.storeRegs x) s)) := rfl

theorem exec_loadRegs (x : Reg) (s : State) :
    exec (.loadRegs x) s = withDataRange s (.loadRegs x) (x.val + 1) (fun s => .next (effect (.loadRegs x) s)) := rfl

theorem exec_ldB_of_lt {s : State} (x : Reg) (h : s.I.toNat + 2 < 4096) :
    exec (.ldB x) s = .next (effect (.ldB x) s) := (exec_ldB x s).trans (withDataRange_of_le h)

theorem exec_storeRegs_of_lt {s : State} {x : Reg} (h : s.I.toNat + x.val < 4096) :
    exec (.storeRegs x) s = .next (effect (.storeRegs x) s) := (exec_storeRegs x s).trans (withDataRange_of_le h)

theorem exec_loadRegs_of_lt {s : State} {x : Reg} (h : s.I.toNat + x.val < 4096) :
    exec (.loadRegs x) s = .next (effect (.loadRegs x) s) := (exec_loadRegs x s).trans (withDataRange_of_le h)

/-- Settles O44, from the closed form of the lowest failing address. -/
theorem dataAccessOutsideMemoryFaults : Obligations.DataAccessOutsideMemoryFaults := by
  refine fun x s => ⟨fun h => ?_, fun h => ⟨?_, ?_⟩⟩
  · exact (exec_ldB x s).trans (withDataRange_of_gt (by decide) (Nat.lt_succ_of_le h))
  · exact (exec_storeRegs x s).trans (withDataRange_of_gt x.val.succ_pos (Nat.lt_succ_of_le h))
  · exact (exec_loadRegs x s).trans (withDataRange_of_gt x.val.succ_pos (Nat.lt_succ_of_le h))

/-! ## Bytes moved -/

theorem Memory.read_writeBytes_inside (m : Memory) (a : Nat) {vs : List Byte} {k : Nat} {v : Byte}
    (h : vs[k]? = some v) : (m.writeBytes a vs).read (a + k) = v := by
  rw [read_writeBytes, if_pos (Nat.le_add_right a k), Nat.add_sub_cancel_left, h, Option.getD_some]

section
variable (s : State) (x : Reg)

theorem toNat_hundreds (v : Byte) : (BitVec.ofNat 8 (v.toNat / 100)).toNat = v.toNat / 100 := by
  have := v.isLt
  rw [BitVec.toNat_ofNat]
  omega

theorem toNat_tens (v : Byte) : (BitVec.ofNat 8 (v.toNat / 10 % 10)).toNat = v.toNat / 10 % 10 := by
  rw [BitVec.toNat_ofNat]
  omega

theorem toNat_ones (v : Byte) : (BitVec.ofNat 8 (v.toNat % 10)).toNat = v.toNat % 10 := by
  rw [BitVec.toNat_ofNat]
  omega

theorem toNat_read_ldB_hundreds :
    ((effect (.ldB x) s).mem.read s.I.toNat).toNat = (s.getV x).toNat / 100 :=
  (congrArg BitVec.toNat (Memory.read_writeBytes_inside s.mem s.I.toNat (k := 0) rfl)).trans (toNat_hundreds _)

theorem toNat_read_ldB_tens :
    ((effect (.ldB x) s).mem.read (s.I.toNat + 1)).toNat = (s.getV x).toNat / 10 % 10 :=
  (congrArg BitVec.toNat (Memory.read_writeBytes_inside s.mem s.I.toNat (k := 1) rfl)).trans (toNat_tens _)

theorem toNat_read_ldB_ones :
    ((effect (.ldB x) s).mem.read (s.I.toNat + 2)).toNat = (s.getV x).toNat % 10 :=
  (congrArg BitVec.toNat (Memory.read_writeBytes_inside s.mem s.I.toNat (k := 2) rfl)).trans (toNat_ones _)

theorem read_storeRegs {k : Reg} (h : k ≤ x) : (effect (.storeRegs x) s).mem.read (s.I.toNat + k.val) = s.getV k :=
  Memory.read_writeBytes_inside s.mem s.I.toNat (getElem?_regsUpTo s x k h)

theorem getV_loadRegs (k : Reg) : (effect (.loadRegs x) s).getV k =
    if k ≤ x then s.mem.read (s.I.toNat + k.val) else s.getV k := by
  refine (getElem_fillRegs _ 0 s.V k.val k.isLt).trans ?_
  rw [if_pos (Nat.zero_le _), Nat.sub_zero]
  split
  case isTrue h =>
    have hk : k.val < x.val + 1 := Nat.lt_succ_of_le h
    rw [List.getElem?_eq_getElem (by simpa using hk), Option.getD_some, Memory.getElem_readBytes]
    rfl
  case isFalse h =>
    have hk : x.val + 1 ≤ k.val := Nat.lt_of_not_le h
    rw [List.getElem?_eq_none (by simpa using hk), Option.getD_none]
    rfl

end

/-- Settles O41. -/
theorem decimalDigitsAreStored : Obligations.DecimalDigitsAreStored := fun x s =>
  ⟨decodeWord_encode (i := .ldB x) rfl, fun h => ⟨_, exec_ldB_of_lt x h, toNat_read_ldB_hundreds s x,
    toNat_read_ldB_tens s x, toNat_read_ldB_ones s x, fun _ ha => Memory.read_writeBytes_outside s.mem _ ha, rfl⟩⟩

/-- Settles O42. -/
theorem registersAreStored : Obligations.RegistersAreStored := by
  refine fun x s => ⟨decodeWord_encode (i := .storeRegs x) rfl, fun h => ⟨_, exec_storeRegs_of_lt h,
    fun k hk => read_storeRegs s x hk, fun a ha => Memory.read_writeBytes_outside s.mem _ ?_, rfl⟩⟩
  rw [length_regsUpTo]
  exact ha

/-- Settles O43. -/
theorem registersAreLoaded : Obligations.RegistersAreLoaded := fun x s =>
  ⟨decodeWord_encode (i := .loadRegs x) rfl, fun h => ⟨_, exec_loadRegs_of_lt h,
    fun k hk => (getV_loadRegs s x k).trans (if_pos hk),
    fun k hk => (getV_loadRegs s x k).trans (if_neg (Nat.not_le.2 hk)), rfl⟩⟩

/-- The word fetched at an address given as a number. -/
theorem fetch_setPc {s : State} {p : Word} {a : Nat} (hp : p.toNat = a) (ha : a + 1 < 4096) :
    ({ s with pc := p } : State).fetch = some (wordOfBytes (s.mem.read a) (s.mem.read (a + 1))) := by
  subst hp
  exact fetch_of_lt ha

/-- Settles O45: the bytes stored are the bytes read, and the fetch reads two of them. -/
theorem storedBytesAreFetched : Obligations.StoredBytesAreFetched := by
  refine fun x s t => ⟨fun h hin k hk p hp => ?_, fun h hin p => ?_⟩
  · rw [exec_storeRegs_of_lt hin] at h
    cases h
    have hlow := read_storeRegs s x (k := ⟨k.val + 1, Nat.lt_of_le_of_lt hk x.isLt⟩) hk
    rw [fetch_setPc hp (by omega), read_storeRegs s x (Nat.le_of_succ_le hk), Nat.add_assoc, hlow]
  · rw [exec_ldB_of_lt x hin] at h
    cases h
    constructor
    · intro hp
      refine ⟨_, fetch_setPc hp (by omega), ?_⟩
      rw [toNat_wordOfBytes, toNat_read_ldB_hundreds, toNat_read_ldB_tens]
    · intro hp
      refine ⟨_, fetch_setPc hp (by omega), ?_⟩
      rw [toNat_wordOfBytes, toNat_read_ldB_tens, toNat_read_ldB_ones]

/-! ## Canonical memories -/

/-- A canonical memory lists an address exactly when it does not read as its reset contents. -/
theorem Memory.lookup_of_wfFrom {lo : Nat} {m : Memory} (hm : wfFrom lo m = true) (a : Nat) :
    lookup a m = if m.read a = initialByte a then none else some (m.read a) := by
  induction m generalizing lo with
  | nil => simp [lookup, read]
  | cons c m ih =>
    obtain ⟨b, v⟩ := c
    simp only [wfFrom, Bool.and_eq_true, decide_eq_true_eq] at hm
    obtain ⟨⟨-, hv⟩, htail⟩ := hm
    by_cases hb : b = a
    · subst hb
      simp [lookup, read, hv]
    · have ih' := ih htail
      simp only [lookup, read, if_neg hb] at ih' ⊢
      exact ih'

/-- The head of a canonical memory stands at the lowest address it lists. -/
theorem Memory.head_le_of_lookup {lo a b : Nat} {v : Byte} {m : Memory} (hm : wfFrom lo ((a, v) :: m) = true)
    (h : lookup b ((a, v) :: m) ≠ none) : a ≤ b := by
  refine Nat.le_of_not_lt fun hlt => h (lookup_of_lt (lo := a) ?_ hlt)
  simp only [wfFrom, Bool.and_eq_true, decide_eq_true_eq] at hm ⊢
  exact ⟨⟨⟨Nat.le_refl a, hm.1.1.2⟩, hm.1.2⟩, hm.2⟩

theorem Memory.wfFrom_tail {lo a : Nat} {v : Byte} {m : Memory} (hm : wfFrom lo ((a, v) :: m) = true) :
    wfFrom (a + 1) m = true := by
  rw [wfFrom, Bool.and_eq_true] at hm
  exact hm.2

theorem Memory.lookup_head (a : Nat) (v : Byte) (m : Memory) : lookup a ((a, v) :: m) = some v := if_pos rfl

theorem Memory.lookup_tail {a b : Nat} (v : Byte) (m : Memory) (h : a ≠ b) :
    lookup b ((a, v) :: m) = lookup b m := if_neg h

/-- Canonical memories that list the same are the same list: the lowest address listed is the head of both. -/
theorem Memory.eq_of_lookup_eq {lo lo' : Nat} {m m' : Memory} (hm : wfFrom lo m = true) (hm' : wfFrom lo' m' = true)
    (h : ∀ a, lookup a m = lookup a m') : m = m' := by
  induction m generalizing lo lo' m' with
  | nil =>
    cases m' with
    | nil => rfl
    | cons c m' => exact nomatch (h c.1).trans (lookup_head c.1 c.2 m')
  | cons c m ih =>
    obtain ⟨a, v⟩ := c
    cases m' with
    | nil => exact nomatch (lookup_head a v m).symm.trans (h a)
    | cons c' m' =>
      obtain ⟨b, w⟩ := c'
      have hab : a ≤ b := head_le_of_lookup hm (by rw [h, lookup_head]; exact nofun)
      have hba : b ≤ a := head_le_of_lookup hm' (by rw [← h, lookup_head]; exact nofun)
      obtain rfl := Nat.le_antisymm hab hba
      have hvw := (lookup_head a v m).symm.trans ((h a).trans (lookup_head a w m'))
      obtain rfl := Option.some.inj hvw
      refine congrArg _ (ih (wfFrom_tail hm) (wfFrom_tail hm') fun e => ?_)
      by_cases hae : a = e
      · subst hae
        rw [lookup_of_lt (wfFrom_tail hm) (Nat.lt_succ_self a), lookup_of_lt (wfFrom_tail hm') (Nat.lt_succ_self a)]
      · rw [← lookup_tail v m hae, h, lookup_tail v m' hae]

/-- Settles O54: what an address reads decides whether it is listed, and as what. -/
theorem canonicalMemoriesAreEqual : Obligations.CanonicalMemoriesAreEqual := fun m m' hm hm' h =>
  Memory.eq_of_lookup_eq hm hm' fun a => by rw [Memory.lookup_of_wfFrom hm, Memory.lookup_of_wfFrom hm', h]

end Sys2Proof.Machine
end

section
/-! Display instructions (43_display.md section 2): CLS, and what DRW does on each side of its two checks. -/

namespace Sys2Proof.Machine

/-- Settles O47. -/
theorem clearScreenTurnsEveryPixelOff : Obligations.ClearScreenTurnsEveryPixelOff := fun ign _ =>
  ⟨decodeWord_encode (i := .cls ign) rfl, _, rfl, Framebuffer.getPixel_clear, rfl⟩

/-- Settles O50: the height first, then the lowest failing address. -/
theorem drawFaultsBeforeDrawing : Obligations.DrawFaultsBeforeDrawing := fun x y _ _ =>
  ⟨fun hn => ⟨_, exec_drw_of_high x y hn⟩,
    fun hpos hn hout => (exec_drw_of_le x y hn).trans (withDataRange_of_gt hpos hout)⟩

/-- DRW draws when it has no byte to read or all its bytes are in memory. -/
theorem exec_drw_of_fits {s : State} {n : Nat} (x y : Reg) (hn : n ≤ 15) (h : n = 0 ∨ s.I.toNat + n ≤ 4096) :
    exec (.drw x y n) s = .next (drawFrom x y n s) := by
  rw [exec_drw_of_le x y hn]
  obtain rfl | h := h
  · exact withDataRange_zero
  · exact withDataRange_of_le h

/-- The sprite DRW reads from memory, with what it draws and whether it collides. -/
def drawnSprite (x y : Reg) (n : Nat) (s : State) : Framebuffer × Bool :=
  drawSprite (s.mem.readBytes (s.ea 0) n) (s.getV x).toNat (s.getV y).toNat s.fb

/-- DRW writes the drawn bitmap and the collision (43_display.md R187, R189). -/
theorem drawFrom_eq (x y : Reg) (n : Nat) (s : State) :
    drawFrom x y n s = ((s.setFb (drawnSprite x y n s).1).setFlag (drawnSprite x y n s).2).advance := rfl

/-- A pixel the statement's sprite covers is one that the sprite bytes read from memory cover. -/
theorem spriteCovers_readBytes_iff {x y : Reg} {n c r : Nat} {s : State} :
    spriteCovers (s.mem.readBytes (s.ea 0) n) (s.getV x).toNat (s.getV y).toNat c r ↔
      spriteCoversPixel s x y n c r := by
  constructor
  · rintro ⟨k, b, hk, hb, hbit, hcol, hrow⟩
    rw [Memory.getElem_readBytes] at hbit
    exact ⟨k, b, by rwa [Memory.length_readBytes] at hk, hb, hbit, hcol, hrow⟩
  · rintro ⟨k, b, hk, hb, hbit, hcol, hrow⟩
    refine ⟨k, b, by rwa [Memory.length_readBytes], hb, ?_, hcol, hrow⟩
    rw [Memory.getElem_readBytes]
    exact hbit

/-- The bitmap and the collision of a sprite of at most 32 rows, pixel by pixel. -/
theorem drawnSprite_spec (x y : Reg) {n : Nat} (s : State) (hn : n ≤ 32) :
    (∀ c r, (drawnSprite x y n s).1.getPixel c r = true ↔
      ¬(s.fb.getPixel c r = true ↔ spriteCoversPixel s x y n c r)) ∧
    ((drawnSprite x y n s).2 = true ↔ ∃ c r, s.fb.getPixel c r = true ∧ spriteCoversPixel s x y n c r) := by
  simp only [← spriteCovers_readBytes_iff]
  exact drawSprite_spec _ _ _ _ (by rwa [Memory.length_readBytes])

theorem bool01_eq_one_iff (b : Bool) : bool01 b = 0x01#8 ↔ b = true := by
  cases b <;> decide

theorem bool01_eq_one_or_zero (b : Bool) : bool01 b = 0x01#8 ∨ bool01 b = 0x00#8 := by
  cases b <;> decide

/-- Settles O49: DRW's bitmap and flag are those of the sprite drawn. -/
theorem drawFlipsTheSpritesPixels : Obligations.DrawFlipsTheSpritesPixels := by
  refine fun x y n s hn => ⟨decodeWord_encode (i := .drw x y n) (decide_eq_true hn), fun hfits => ?_⟩
  obtain ⟨hpixels, hcollides⟩ := drawnSprite_spec x y s (Nat.le_trans hn (by decide))
  rw [exec_drw_of_fits x y hn hfits, drawFrom_eq]
  refine ⟨_, rfl, hpixels, ?_, ?_, fun r hr => State.getV_setV_of_ne _ hr _, rfl⟩
  · rw [State.getV_advance, State.setFlag, flagReg, State.getV_setV_self]
    exact bool01_eq_one_or_zero _
  · rw [State.getV_advance, State.setFlag, flagReg, State.getV_setV_self, bool01_eq_one_iff]
    exact hcollides

end Sys2Proof.Machine
end

section
/-! Keyboard and timer ports (44_peripheral_ports.md), for every answer of a port. -/

namespace Sys2Proof.Machine

/-- Settles O51. -/
theorem keySkipsAskThePort : Obligations.KeySkipsAskThePort := fun x s =>
  ⟨decodeWord_encode (i := .skp x) rfl, decodeWord_encode (i := .sknp x) rfl,
    congrArg _ (skipIf_of_iff (s := s.countDraw) Iff.rfl),
    congrArg _ (skipIf_of_iff (s := s.countDraw) (Bool.not_eq_true' _).to_iff)⟩

/-- Settles O52, with and without a key. -/
theorem keyWaitRepeatsUntilAKey : Obligations.KeyWaitRepeatsUntilAKey := by
  refine fun x s => ⟨decodeWord_encode (i := .ldVxK x) rfl, ?_⟩
  rw [show exec (.ldVxK x) s = .next (ldKWith (Config.keyWait s.draws) x s.countDraw) from rfl]
  cases Config.keyWait s.draws with
  | none => rfl
  | some k => rfl

/-- Settles O53. -/
theorem timerInstructionsUseTheirPorts : Obligations.TimerInstructionsUseTheirPorts := fun x _ =>
  ⟨decodeWord_encode (i := .ldVxDT x) rfl, decodeWord_encode (i := .ldDTVx x) rfl,
    decodeWord_encode (i := .ldSTVx x) rfl, rfl, rfl, rfl⟩

end Sys2Proof.Machine
end

section
/-! The state after reset (10_state.md section 11). -/

namespace Sys2Proof.Machine

theorem Memory.initialByte_of_ge {a : Nat} (h : 0x050 ≤ a) : initialByte a = 0x00#8 :=
  if_neg fun hfont => Nat.not_lt.2 h hfont.2

/-- Settles O56: nothing is listed, so memory reads as the font and zeros. -/
theorem resetState : Obligations.ResetState := by
  refine ⟨fun x => ?_, rfl, rfl, rfl, fun k hk => ?_, Framebuffer.getPixel_clear, rfl,
    fun a ha _ => Memory.initialByte_of_ge ha, by decide⟩
  · exact Vector.getElem_replicate x.isLt
  · exact Vector.getElem_replicate hk

end Sys2Proof.Machine
end

section
/-! The invariant (10_state.md R29, 30_encoding.md R81, 20_memory.md R50): every step keeps it, the loader keeps it, and
so every state a run reaches meets it. With it, what the loader's operations do (60_exceptions.md R251). -/

namespace Sys2Proof.Machine

/-! ## Writers that keep the invariant -/

theorem State.Inv.halt {s : State} (hs : s.Inv) (f : Fault) : (s.halt f).Inv := ⟨hs.memory, hs.pc_le, hs.stack_le⟩

theorem State.Inv.setMem {s : State} {m : Memory} (hs : s.Inv) (hm : m.wf = true) : (s.setMem m).Inv :=
  ⟨hm, hs.pc_le, hs.stack_le⟩

/-! ## A completed instruction, part by part -/

theorem Completes.memory_wf {i : Instr} {s t : State} (h : Completes i s t) (hs : s.mem.wf = true) :
    t.mem.wf = true := by
  obtain ⟨-, -, -, hin, rfl⟩ := h
  cases i with
  | ldB x => exact Memory.wf_writeBytes (hin 2 (by decide : 2 < 3)) hs
  | storeRegs x =>
    have hlast : s.I.toNat + x.val < 4096 := hin x.val (Nat.lt_succ_self x.val)
    refine Memory.wf_writeBytes ?_ hs
    rw [length_regsUpTo]
    exact hlast
  | ldVxK x => rwa [effect_mem (i := .ldVxK x) s nofun nofun]
  | _ => exact hs

theorem toNat_zextAddr_le (nnn : Addr12) : (zextAddr nnn).toNat ≤ 0xFFF := by
  have := nnn.isLt
  rw [zextAddr, BitVec.toNat_setWidth]
  omega

theorem Completes.pc_le {i : Instr} {s t : State} (h : Completes i s t) (hs : s.Inv) (hpc : s.pc.toNat + 1 < 4096) :
    t.pc.toNat ≤ 0x10FE := by
  obtain ⟨-, hentry, -, -, rfl⟩ := h
  obtain ⟨hseq, hskip, hwait⟩ := effect_pc i s
  cases hc : i.advanceClass with
  | sequential =>
    rw [hseq hc]
    bv_omega
  | skip => obtain h | h := hskip hc <;> rw [h] <;> bv_omega
  | wait => obtain h | h := hwait hc <;> rw [h] <;> bv_omega
  | replace =>
    cases i with
    | jp nnn => exact Nat.le_trans (toNat_zextAddr_le nnn) (by decide)
    | call nnn => exact Nat.le_trans (toNat_zextAddr_le nnn) (by decide)
    | jpV0 nnn =>
      have hsum : (zextByte (s.getV 0) + zextAddr nnn).toNat ≤ 0x10FE := by
        have := toNat_zextAddr_le nnn
        unfold zextByte
        bv_omega
      exact hsum
    | ret ign =>
      have hsp := hentry ign rfl
      have htop := hs.stack_le (s.sp.val - 1) (by omega) (by omega)
      have hsum : (s.stack[s.sp.val - 1]'(by omega) + 2#16).toNat ≤ 0x10FE := by bv_omega
      exact hsum
    | _ => exact nomatch hc

theorem Completes.stack_le {i : Instr} {s t : State} (h : Completes i s t) (hs : s.Inv) (hpc : s.pc.toNat + 1 < 4096)
    (k : Nat) (hk : k < 16) (hlive : k < t.sp.val) : (t.stack[k]).toNat ≤ 0xFFE := by
  obtain ⟨hroom, -, -, -, rfl⟩ := h
  cases i with
  | call nnn =>
    simp only [effect, Vector.getElem_setIfInBounds] at hlive ⊢
    split
    · omega
    · exact hs.stack_le k hk (by omega)
  | ret ign => exact hs.stack_le k hk (Nat.lt_of_lt_of_le hlive (Nat.sub_le _ _))
  | ldVxK x =>
    rw [effect_sp (i := .ldVxK x) s nofun nofun] at hlive
    simp only [effect_stack (i := .ldVxK x) s nofun]
    exact hs.stack_le k hk hlive
  | _ => exact hs.stack_le k hk hlive

/-- A completed instruction keeps the invariant when it was fetched from inside memory. -/
theorem Completes.inv {i : Instr} {s t : State} (h : Completes i s t) (hs : s.Inv) (hpc : s.pc.toNat + 1 < 4096) :
    t.Inv := ⟨h.memory_wf hs.memory, h.pc_le hs hpc, h.stack_le hs hpc⟩

/-- Settles O57: a fault writes only the record, and a completed instruction was fetched from inside memory. -/
theorem stepKeepsTheInvariant : Obligations.StepKeepsTheInvariant := by
  intro s t hs h
  obtain ⟨_, ⟨_, rfl⟩ | ⟨w, e, _, _, rfl⟩ | ⟨w, i, hfetch, _, hexec⟩⟩ := step_next h
  · exact hs.halt _
  · exact hs.halt _
  · obtain ⟨f, _, rfl⟩ | hdone := exec_next_cases hexec
    · exact hs.halt f
    · exact hdone.inv hs (fetch_eq_some hfetch).1

/-- Settles O58: memory lists nothing and the stack is empty. -/
theorem resetMeetsTheInvariant : Obligations.ResetMeetsTheInvariant := ⟨rfl, by decide, nofun⟩

/-! ## The loader -/

theorem loaderWrite_of_halted {s : State} {f : Fault} (h : s.halted = some f) (a : Nat) (v : Byte) :
    s.loaderWrite a v = s := by
  rw [State.loaderWrite, h]

theorem loaderWrite_of_ge {s : State} {a : Nat} (v : Byte) (hs : s.halted = none) (h : 4096 ≤ a) :
    s.loaderWrite a v = s.halt (.programLoad (.addressOutOfRange a)) := by
  rw [State.loaderWrite, hs]
  exact if_neg (Nat.not_lt.2 h)

theorem loadImage_of_halted {s : State} {f : Fault} (h : s.halted = some f) (image : List Byte) :
    s.loadImage image = s := by
  rw [State.loadImage, h]

theorem loadImage_of_gt {s : State} {image : List Byte} (hs : s.halted = none) (h : 0xDFF < image.length) :
    s.loadImage image = s.halt (.programLoad (.imageTooLong image.length)) := by
  rw [State.loadImage, hs]
  exact if_neg (Nat.not_le.2 h)

theorem State.Inv.loaderWrite {s : State} (hs : s.Inv) (a : Nat) (v : Byte) : (s.loaderWrite a v).Inv := by
  cases hh : s.halted with
  | some f => rwa [loaderWrite_of_halted hh]
  | none =>
    obtain ha | ha := Nat.lt_or_ge a 4096
    · rw [loaderWrite_of_lt v hh ha]
      exact hs.setMem (Memory.wf_write ha v hs.memory)
    · rw [loaderWrite_of_ge v hh ha]
      exact hs.halt _

theorem State.Inv.loadImage {s : State} (hs : s.Inv) (image : List Byte) : (s.loadImage image).Inv := by
  cases hh : s.halted with
  | some f => rwa [loadImage_of_halted hh]
  | none =>
    obtain hlen | hlen := Nat.lt_or_ge 0xDFF image.length
    · rw [loadImage_of_gt hh hlen]
      exact hs.halt _
    · rw [loadImage_of_le hh hlen]
      exact hs.setMem (Memory.wf_writeBytes (Nat.le_trans (Nat.add_le_add_left hlen 0x200) (by decide)) hs.memory)

theorem Booted.inv {s : State} (h : Booted s) : s.Inv := by
  induction h with
  | reset => exact resetMeetsTheInvariant
  | loaderWrite a v _ ih => exact ih.loaderWrite a v
  | loadImage image _ ih => exact ih.loadImage image

/-- Settles O59, by induction on the run. -/
theorem reachableStatesMeetTheInvariant : Obligations.ReachableStatesMeetTheInvariant := by
  intro s h
  induction h with
  | boot hb => exact hb.inv
  | step _ hstep ih => exact stepKeepsTheInvariant _ _ ih hstep

/-- Settles O55. Each operation on each side of its bound is one write, one run of writes, or a record. -/
theorem loaderPlacesTheProgram : Obligations.LoaderPlacesTheProgram := by
  intro s hs
  refine ⟨fun a v ha => ?_, fun a v ha => loaderWrite_of_ge v hs ha, fun image hlen => ?_,
    fun image hlen => loadImage_of_gt hs hlen⟩
  · exact ⟨_, loaderWrite_of_lt v hs ha, Memory.read_write_self .., fun b hb => Memory.read_write_of_ne _ hb v, rfl⟩
  · exact ⟨_, loadImage_of_le hs hlen, fun k v hk => Memory.read_writeBytes_inside _ _ hk,
      fun b hb => Memory.read_writeBytes_outside _ image hb, rfl⟩

end Sys2Proof.Machine
end
